-- ==== Sys2Proof/Word.lean ====
section
/-!
DEFINITION. The word types of the CHIP-8 core (spec 00_scope.md R6, R7): bytes, 16-bit words, register and key
indices, screen coordinates. Only names; all arithmetic stands in the files that use it.
-/

namespace Sys2Proof

/-- An 8-bit value: a general register, a timer, a memory byte (00_scope.md R6, `XLEN`, `TIMER_WIDTH`). -/
abbrev Byte := BitVec 8

/-- A 16-bit value: an instruction word, `I`, `pc`, a stack entry (00_scope.md R6, `ILEN`, `I_WIDTH`, `PC_WIDTH`). -/
abbrev Word := BitVec 16

/-- The index of a general register, V0 to VF (10_state.md R21). -/
abbrev Reg := Fin 16

/-- The index of a keypad key, 0x0 to 0xF (10_state.md R29). -/
abbrev Key := Fin 16

/-- A framebuffer column, 0 to 63 (10_state.md R30). -/
abbrev Column := Fin 64

/-- A framebuffer row, 0 to 31 (10_state.md R30). -/
abbrev Row := Fin 32

end Sys2Proof
end

