-- ==== Sys2Proof/Syntax.lean ====
section
/-!
DEFINITION. The instruction set: one constructor for each of the 34 rows of spec/opcode_table.json, in the order of
spec 30_encoding.md R105. Operands are typed by the width of their field (R101): `x`, `y` a register index, `n` a
4-bit count, `nn` a byte, `nnn` a 12-bit address.
-/

namespace Sys2Proof

inductive Instr where
  /-- 00E0 `CLS` (43_display.md R180). -/
  | cls
  /-- 00EE `RET` (40_control_flow.md R132). -/
  | ret
  /-- 1NNN `JP nnn` (40_control_flow.md R130). -/
  | jp (nnn : BitVec 12)
  /-- 2NNN `CALL nnn` (40_control_flow.md R131). -/
  | call (nnn : BitVec 12)
  /-- 3XNN `SE Vx, nn` (40_control_flow.md R134). -/
  | seImm (x : Reg) (nn : Byte)
  /-- 4XNN `SNE Vx, nn` (40_control_flow.md R135). -/
  | sneImm (x : Reg) (nn : Byte)
  /-- 5XY0 `SE Vx, Vy` (40_control_flow.md R136). -/
  | seReg (x y : Reg)
  /-- 6XNN `LD Vx, nn` (41_register_arithmetic.md R150). -/
  | ldImm (x : Reg) (nn : Byte)
  /-- 7XNN `ADD Vx, nn` (41_register_arithmetic.md R151). -/
  | addImm (x : Reg) (nn : Byte)
  /-- 8XY0 `LD Vx, Vy` (41_register_arithmetic.md R152). -/
  | ldReg (x y : Reg)
  /-- 8XY1 `OR Vx, Vy` (41_register_arithmetic.md R153). -/
  | orReg (x y : Reg)
  /-- 8XY2 `AND Vx, Vy` (41_register_arithmetic.md R154). -/
  | andReg (x y : Reg)
  /-- 8XY3 `XOR Vx, Vy` (41_register_arithmetic.md R155). -/
  | xorReg (x y : Reg)
  /-- 8XY4 `ADD Vx, Vy` (41_register_arithmetic.md R156). -/
  | addReg (x y : Reg)
  /-- 8XY5 `SUB Vx, Vy` (41_register_arithmetic.md R157). -/
  | sub (x y : Reg)
  /-- 8XY6 `SHR Vx` (41_register_arithmetic.md R158); `y` is in the word and ignored. -/
  | shr (x y : Reg)
  /-- 8XY7 `SUBN Vx, Vy` (41_register_arithmetic.md R159). -/
  | subn (x y : Reg)
  /-- 8XYE `SHL Vx` (41_register_arithmetic.md R160); `y` is in the word and ignored. -/
  | shl (x y : Reg)
  /-- 9XY0 `SNE Vx, Vy` (40_control_flow.md R137). -/
  | sneReg (x y : Reg)
  /-- ANNN `LD I, nnn` (42_memory_index.md R170). -/
  | ldI (nnn : BitVec 12)
  /-- BNNN `JP V0, nnn` (40_control_flow.md R133). -/
  | jpV0 (nnn : BitVec 12)
  /-- CXNN `RND Vx, nn` (42_memory_index.md R172). -/
  | rnd (x : Reg) (nn : Byte)
  /-- DXYN `DRW Vx, Vy, n` (43_display.md R181). -/
  | drw (x y : Reg) (n : BitVec 4)
  /-- EX9E `SKP Vx` (44_key_timer.md R190). -/
  | skp (x : Reg)
  /-- EXA1 `SKNP Vx` (44_key_timer.md R191). -/
  | sknp (x : Reg)
  /-- FX07 `LD Vx, DT` (44_key_timer.md R193). -/
  | ldVxDt (x : Reg)
  /-- FX0A `LD Vx, K` (44_key_timer.md R192). -/
  | ldVxK (x : Reg)
  /-- FX15 `LD DT, Vx` (44_key_timer.md R194). -/
  | ldDtVx (x : Reg)
  /-- FX18 `LD ST, Vx` (44_key_timer.md R195). -/
  | ldStVx (x : Reg)
  /-- FX1E `ADD I, Vx` (44_key_timer.md R196). -/
  | addIVx (x : Reg)
  /-- FX29 `LD F, Vx` (42_memory_index.md R171). -/
  | ldFVx (x : Reg)
  /-- FX33 `LD B, Vx` (44_key_timer.md R199). -/
  | ldBVx (x : Reg)
  /-- FX55 `LD [I], Vx` (44_key_timer.md R197). -/
  | ldMemVx (x : Reg)
  /-- FX65 `LD Vx, [I]` (44_key_timer.md R198). -/
  | ldVxMem (x : Reg)
  deriving DecidableEq, Repr

end Sys2Proof
end

