-- ==== Sys2Proof/WellFormed.lean ====
section
/-!
DEFINITION. When the operands of an instruction fit their fields (spec 30_encoding.md R101, R103): `x`, `y`, `n` below
16, `nn` below 256, `nnn` below 4096. The operands are written as plain numbers here, as the assembler of R111
writes them, and each check can fail on such a tuple. `Instr` types its operands by these widths, so every term of
`Instr` passes; Laws/Encoding.lean proves it.
-/

namespace Sys2Proof

/-- The operand fields of one instruction as plain numbers, 0 where its format has no such field (R102). -/
structure OperandNumbers where
  x : Nat := 0
  y : Nat := 0
  n : Nat := 0
  nn : Nat := 0
  nnn : Nat := 0
  deriving DecidableEq, Repr

/-- Each operand fits the width of its field (30_encoding.md R101). -/
def OperandNumbers.wellFormed (o : OperandNumbers) : Bool :=
  decide (o.x < 16) && decide (o.y < 16) && decide (o.n < 16) && decide (o.nn < 256) && decide (o.nnn < 4096)

/-- The operands an instruction carries, by format (30_encoding.md R102). -/
def Instr.operands : Instr → OperandNumbers
  | .cls | .ret => {}
  | .jp nnn | .call nnn | .ldI nnn | .jpV0 nnn => { nnn := nnn.toNat }
  | .seImm x nn | .sneImm x nn | .ldImm x nn | .addImm x nn | .rnd x nn => { x := x.val, nn := nn.toNat }
  | .seReg x y | .ldReg x y | .orReg x y | .andReg x y | .xorReg x y | .addReg x y | .sub x y | .shr x y
  | .subn x y | .shl x y | .sneReg x y => { x := x.val, y := y.val }
  | .drw x y n => { x := x.val, y := y.val, n := n.toNat }
  | .skp x | .sknp x | .ldVxDt x | .ldVxK x | .ldDtVx x | .ldStVx x | .addIVx x | .ldFVx x | .ldBVx x
  | .ldMemVx x | .ldVxMem x => { x := x.val }

/-- An instruction is well-formed when its operands fit their fields. -/
def Instr.wellFormed (i : Instr) : Bool := i.operands.wellFormed

end Sys2Proof
end

