-- ==== Sys2Proof/Decode.lean ====
section
/-!
DEFINITION. The decoder of spec 30_encoding.md R106, total on every word and on any bytes, the encoder written from
the formats of R102 and the opcode map of R105, and the opcode map itself as rows of mask and match. Words that match no
row are refused by name (R107); strict matching of every fixed nibble (R109).

Opcode numbers and byte order are the spec's own, taken by it from general knowledge (G1, G2): log entry 8.
-/

namespace Sys2Proof

/-- The operand fields of a word, extracted by fixed slices whatever the operation is (30_encoding.md R101, R106). -/
structure Fields where
  x : Reg
  y : Reg
  n : BitVec 4
  nn : Byte
  nnn : BitVec 12
  deriving DecidableEq, Repr

/-- The family, `w[15:12]` (30_encoding.md R101). -/
def familyOf (w : Word) : Nat := (w.extractLsb' 12 4).toNat

/-- `x = w[11:8]`, `y = w[7:4]`, `n = w[3:0]`, `nn = w[7:0]`, `nnn = w[11:0]` (30_encoding.md R101). -/
def fieldsOf (w : Word) : Fields where
  x := (w.extractLsb' 8 4).toFin
  y := (w.extractLsb' 4 4).toFin
  n := w.extractLsb' 0 4
  nn := w.extractLsb' 0 8
  nnn := w.extractLsb' 0 12

/-- Family 8, dispatched on the low nibble (30_encoding.md R104, R106). -/
def decodeFamily8 (d : Fields) : Option Instr :=
  match d.n.toNat with
  | 0x0 => some (.ldReg d.x d.y)
  | 0x1 => some (.orReg d.x d.y)
  | 0x2 => some (.andReg d.x d.y)
  | 0x3 => some (.xorReg d.x d.y)
  | 0x4 => some (.addReg d.x d.y)
  | 0x5 => some (.sub d.x d.y)
  | 0x6 => some (.shr d.x d.y)
  | 0x7 => some (.subn d.x d.y)
  | 0xE => some (.shl d.x d.y)
  | _ => none

/-- Family F, dispatched on the low byte (30_encoding.md R104, R106). -/
def decodeFamilyF (d : Fields) : Option Instr :=
  match d.nn.toNat with
  | 0x07 => some (.ldVxDt d.x)
  | 0x0A => some (.ldVxK d.x)
  | 0x15 => some (.ldDtVx d.x)
  | 0x18 => some (.ldStVx d.x)
  | 0x1E => some (.addIVx d.x)
  | 0x29 => some (.ldFVx d.x)
  | 0x33 => some (.ldBVx d.x)
  | 0x55 => some (.ldMemVx d.x)
  | 0x65 => some (.ldVxMem d.x)
  | _ => none

/-- `Decode` (30_encoding.md R106): the instruction of a word, `none` for `UNKNOWN`. Pure and total. -/
def decodeWord (w : Word) : Option Instr :=
  let d := fieldsOf w
  match familyOf w with
  | 0x0 => match d.nnn.toNat with
    | 0x0E0 => some .cls
    | 0x0EE => some .ret
    | _ => none
  | 0x1 => some (.jp d.nnn)
  | 0x2 => some (.call d.nnn)
  | 0x3 => some (.seImm d.x d.nn)
  | 0x4 => some (.sneImm d.x d.nn)
  | 0x5 => match d.n.toNat with
    | 0x0 => some (.seReg d.x d.y)
    | _ => none
  | 0x6 => some (.ldImm d.x d.nn)
  | 0x7 => some (.addImm d.x d.nn)
  | 0x8 => decodeFamily8 d
  | 0x9 => match d.n.toNat with
    | 0x0 => some (.sneReg d.x d.y)
    | _ => none
  | 0xA => some (.ldI d.nnn)
  | 0xB => some (.jpV0 d.nnn)
  | 0xC => some (.rnd d.x d.nn)
  | 0xD => some (.drw d.x d.y d.n)
  | 0xE => match d.nn.toNat with
    | 0x9E => some (.skp d.x)
    | 0xA1 => some (.sknp d.x)
    | _ => none
  | 0xF => decodeFamilyF d
  | _ => none

/-- Why bytes are no instruction. -/
inductive DecodeRejection where
  /-- A word that matches no row of the opcode map (30_encoding.md R107). -/
  | unknownInstruction (w : Word)
  /-- Fewer than the two bytes of an instruction (30_encoding.md R100). -/
  | truncated
  deriving DecidableEq, Repr

/-- The word of two bytes as memory holds them: the first byte is the high byte (20_memory.md R75). -/
def wordOfBytes (hi lo : Byte) : Word := hi ++ lo

/-- The two bytes of a word as memory holds them, the high byte first (20_memory.md R75, 30_encoding.md R100). -/
def bytesOfWord (w : Word) : List Byte := [w.extractLsb' 8 8, w.extractLsb' 0 8]

/-- Decode the instruction at the head of any bytes and give the bytes after it; reject by name otherwise. -/
def decode : List Byte → Except DecodeRejection (Instr × List Byte)
  | hi :: lo :: rest =>
    match decodeWord (wordOfBytes hi lo) with
    | some i => .ok (i, rest)
    | none => .error (.unknownInstruction (wordOfBytes hi lo))
  | _ => .error .truncated

/-- Format `NNN` (30_encoding.md R102). -/
def formatNNN (op : BitVec 4) (nnn : BitVec 12) : Word := op ++ nnn

/-- Formats `XNN` and `X` (30_encoding.md R102); in format `X` the low byte is the fixed sub-opcode. -/
def formatXNN (op : BitVec 4) (x : Reg) (nn : Byte) : Word := op ++ (BitVec.ofFin x : BitVec 4) ++ nn

/-- Formats `XY` and `XYN` (30_encoding.md R102); in format `XY` the low nibble is the fixed sub-opcode. -/
def formatXYN (op : BitVec 4) (x y : Reg) (n : BitVec 4) : Word :=
  op ++ (BitVec.ofFin x : BitVec 4) ++ (BitVec.ofFin y : BitVec 4) ++ n

/-- The word of an instruction (30_encoding.md R102, R105). -/
def encode : Instr → Word
  | .cls => 0x00E0
  | .ret => 0x00EE
  | .jp nnn => formatNNN 0x1 nnn
  | .call nnn => formatNNN 0x2 nnn
  | .seImm x nn => formatXNN 0x3 x nn
  | .sneImm x nn => formatXNN 0x4 x nn
  | .seReg x y => formatXYN 0x5 x y 0x0
  | .ldImm x nn => formatXNN 0x6 x nn
  | .addImm x nn => formatXNN 0x7 x nn
  | .ldReg x y => formatXYN 0x8 x y 0x0
  | .orReg x y => formatXYN 0x8 x y 0x1
  | .andReg x y => formatXYN 0x8 x y 0x2
  | .xorReg x y => formatXYN 0x8 x y 0x3
  | .addReg x y => formatXYN 0x8 x y 0x4
  | .sub x y => formatXYN 0x8 x y 0x5
  | .shr x y => formatXYN 0x8 x y 0x6
  | .subn x y => formatXYN 0x8 x y 0x7
  | .shl x y => formatXYN 0x8 x y 0xE
  | .sneReg x y => formatXYN 0x9 x y 0x0
  | .ldI nnn => formatNNN 0xA nnn
  | .jpV0 nnn => formatNNN 0xB nnn
  | .rnd x nn => formatXNN 0xC x nn
  | .drw x y n => formatXYN 0xD x y n
  | .skp x => formatXNN 0xE x 0x9E
  | .sknp x => formatXNN 0xE x 0xA1
  | .ldVxDt x => formatXNN 0xF x 0x07
  | .ldVxK x => formatXNN 0xF x 0x0A
  | .ldDtVx x => formatXNN 0xF x 0x15
  | .ldStVx x => formatXNN 0xF x 0x18
  | .addIVx x => formatXNN 0xF x 0x1E
  | .ldFVx x => formatXNN 0xF x 0x29
  | .ldBVx x => formatXNN 0xF x 0x33
  | .ldMemVx x => formatXNN 0xF x 0x55
  | .ldVxMem x => formatXNN 0xF x 0x65

/-- One row of the opcode map: a word `w` selects it when `w & mask = pattern` (30_encoding.md R105). -/
structure OpcodeRow where
  mnemonic : String
  pattern : Word
  mask : Word
  deriving DecidableEq, Repr

/-- A word selects a row (30_encoding.md R105). -/
def OpcodeRow.selects (r : OpcodeRow) (w : Word) : Bool := w &&& r.mask == r.pattern

/-- Rows 1 to 19 of the opcode map (30_encoding.md R105). -/
def opcodeMapLow : List OpcodeRow :=
  [⟨"CLS", 0x00E0, 0xFFFF⟩, ⟨"RET", 0x00EE, 0xFFFF⟩, ⟨"JP_nnn", 0x1000, 0xF000⟩, ⟨"CALL_nnn", 0x2000, 0xF000⟩,
   ⟨"SE_Vx__nn", 0x3000, 0xF000⟩, ⟨"SNE_Vx__nn", 0x4000, 0xF000⟩, ⟨"SE_Vx__Vy", 0x5000, 0xF00F⟩,
   ⟨"LD_Vx__nn", 0x6000, 0xF000⟩, ⟨"ADD_Vx__nn", 0x7000, 0xF000⟩] ++
  [⟨"LD_Vx__Vy", 0x8000, 0xF00F⟩, ⟨"OR_Vx__Vy", 0x8001, 0xF00F⟩, ⟨"AND_Vx__Vy", 0x8002, 0xF00F⟩,
   ⟨"XOR_Vx__Vy", 0x8003, 0xF00F⟩, ⟨"ADD_Vx__Vy", 0x8004, 0xF00F⟩, ⟨"SUB_Vx__Vy", 0x8005, 0xF00F⟩,
   ⟨"SHR_Vx", 0x8006, 0xF00F⟩, ⟨"SUBN_Vx__Vy", 0x8007, 0xF00F⟩, ⟨"SHL_Vx", 0x800E, 0xF00F⟩,
   ⟨"SNE_Vx__Vy", 0x9000, 0xF00F⟩]

/-- Rows 20 to 34 of the opcode map (30_encoding.md R105). -/
def opcodeMapHigh : List OpcodeRow :=
  [⟨"LD_I__nnn", 0xA000, 0xF000⟩, ⟨"JP_V0__nnn", 0xB000, 0xF000⟩, ⟨"RND_Vx__nn", 0xC000, 0xF000⟩,
   ⟨"DRW_Vx__Vy__n", 0xD000, 0xF000⟩, ⟨"SKP_Vx", 0xE09E, 0xF0FF⟩, ⟨"SKNP_Vx", 0xE0A1, 0xF0FF⟩] ++
  [⟨"LD_Vx__DT", 0xF007, 0xF0FF⟩, ⟨"LD_Vx__K", 0xF00A, 0xF0FF⟩, ⟨"LD_DT__Vx", 0xF015, 0xF0FF⟩,
   ⟨"LD_ST__Vx", 0xF018, 0xF0FF⟩, ⟨"ADD_I__Vx", 0xF01E, 0xF0FF⟩, ⟨"LD_F__Vx", 0xF029, 0xF0FF⟩,
   ⟨"LD_B__Vx", 0xF033, 0xF0FF⟩, ⟨"LD__I___Vx", 0xF055, 0xF0FF⟩, ⟨"LD_Vx___I", 0xF065, 0xF0FF⟩]

/-- The opcode map: the 34 rows of 30_encoding.md R105, in its order. -/
def opcodeMap : List OpcodeRow := opcodeMapLow ++ opcodeMapHigh

/-- The mnemonic of an instruction's row, as spec/opcode_table.json spells it. -/
def Instr.mnemonic : Instr → String
  | .cls => "CLS"
  | .ret => "RET"
  | .jp _ => "JP_nnn"
  | .call _ => "CALL_nnn"
  | .seImm _ _ => "SE_Vx__nn"
  | .sneImm _ _ => "SNE_Vx__nn"
  | .seReg _ _ => "SE_Vx__Vy"
  | .ldImm _ _ => "LD_Vx__nn"
  | .addImm _ _ => "ADD_Vx__nn"
  | .ldReg _ _ => "LD_Vx__Vy"
  | .orReg _ _ => "OR_Vx__Vy"
  | .andReg _ _ => "AND_Vx__Vy"
  | .xorReg _ _ => "XOR_Vx__Vy"
  | .addReg _ _ => "ADD_Vx__Vy"
  | .sub _ _ => "SUB_Vx__Vy"
  | .shr _ _ => "SHR_Vx"
  | .subn _ _ => "SUBN_Vx__Vy"
  | .shl _ _ => "SHL_Vx"
  | .sneReg _ _ => "SNE_Vx__Vy"
  | .ldI _ => "LD_I__nnn"
  | .jpV0 _ => "JP_V0__nnn"
  | .rnd _ _ => "RND_Vx__nn"
  | .drw _ _ _ => "DRW_Vx__Vy__n"
  | .skp _ => "SKP_Vx"
  | .sknp _ => "SKNP_Vx"
  | .ldVxDt _ => "LD_Vx__DT"
  | .ldVxK _ => "LD_Vx__K"
  | .ldDtVx _ => "LD_DT__Vx"
  | .ldStVx _ => "LD_ST__Vx"
  | .addIVx _ => "ADD_I__Vx"
  | .ldFVx _ => "LD_F__Vx"
  | .ldBVx _ => "LD_B__Vx"
  | .ldMemVx _ => "LD__I___Vx"
  | .ldVxMem _ => "LD_Vx___I"

/-- The instruction the decoder reads from an instruction whose bits are `w`, bit 0 the least significant bit of its
one word. Every row has 16 bits; bits above `nbits` are 0. The word is laid out as memory holds it, high byte first,
and given to `decode`. -/
def decodeTableWord (nbits w : Nat) : Option Instr :=
  match decode (bytesOfWord (BitVec.ofNat 16 (w % 2 ^ nbits))) with
  | .ok (i, _) => some i
  | .error _ => none

end Sys2Proof
end

