-- ==== Sys2Proof/Config.lean ====
section
/-!
DEFINITION. The implementation parameters of spec 00_scope.md R6 that a rule uses, and the free byte source of
10_state.md R34. The parameter `FONT` stands in Machine/Font.lean.

`BLOCK_XFER_INCREMENTS_I` is fixed false by the spec (D13): the block transfers have no write of `I` at all.
`TIMER_HZ` is used by no rule (70_reset_and_hazards.md R256).
-/

namespace Sys2Proof.Config

/-- `ADDR_MAX`, the highest legal byte address (00_scope.md R6). -/
@[simp, reducible] def addrMax : Nat := 0xFFF

/-- `FONT_BASE`, the address of the font table (00_scope.md R6). -/
@[simp, reducible] def fontBase : Nat := 0x000

/-- `GLYPH_BYTES`, the bytes of one glyph (00_scope.md R6). -/
@[simp, reducible] def glyphBytes : Nat := 5

/-- `PROG_BASE`, the load address and the reset value of `pc` (00_scope.md R6). -/
@[simp, reducible] def progBase : Nat := 0x200

/-- `PROG_MAX_BYTES`, the largest program image (00_scope.md R6). -/
@[simp, reducible] def progMaxBytes : Nat := 3584

/-- `Rand8`, the byte source of `RND` (10_state.md R34, 42_memory_index.md R172): a FREE VALUE. No body, so nothing
can be proved of it; a statement that mentions it holds for every byte it may give. The argument counts the draws
(the field `draws` of State), so that each execution of `RND` takes a value of its own. Log entry 4. -/
opaque rand8 : Nat → Byte

end Sys2Proof.Config
end

