-- ==== Sys2Proof/Machine/Font.lean ====
section
/-!
DEFINITION. The parameter `FONT` of spec 00_scope.md R6: its type, its default of 20_memory.md R84, and the contents of
memory after reset that follow from a given table.
-/

namespace Sys2Proof

/-- `FONT[0..79]`, sixteen glyphs of five bytes, glyph 0 first (20_memory.md R84). A machine is built with one and keeps
it: `Memory.font`. -/
abbrev FontTable := Vector Byte 80

/-- The bytes of the default table, as 20_memory.md R84 lists them. -/
def Config.defaultFontBytes : List Byte :=
  [0xF0, 0x90, 0x90, 0x90, 0xF0] ++ [0x20, 0x60, 0x20, 0x20, 0x70] ++
  [0xF0, 0x10, 0xF0, 0x80, 0xF0] ++ [0xF0, 0x10, 0xF0, 0x10, 0xF0] ++
  [0x90, 0x90, 0xF0, 0x10, 0x10] ++ [0xF0, 0x80, 0xF0, 0x10, 0xF0] ++
  [0xF0, 0x80, 0xF0, 0x90, 0xF0] ++ [0xF0, 0x10, 0x20, 0x40, 0x40] ++
  [0xF0, 0x90, 0xF0, 0x90, 0xF0] ++ [0xF0, 0x90, 0xF0, 0x10, 0xF0] ++
  [0xF0, 0x90, 0xF0, 0x90, 0x90] ++ [0xE0, 0x90, 0xE0, 0x90, 0xE0] ++
  [0xF0, 0x80, 0x80, 0x80, 0xF0] ++ [0xE0, 0x90, 0x90, 0x90, 0xE0] ++
  [0xF0, 0x80, 0xF0, 0x80, 0xF0] ++ [0xF0, 0x80, 0xF0, 0x80, 0x80]

/-- The default of the parameter `FONT` (00_scope.md R6, 20_memory.md R84); the spec takes its bytes from general
knowledge (G6). Log entry 5. -/
def Config.defaultFont : FontTable := ⟨Config.defaultFontBytes.toArray, by decide⟩

/-- What `MEM[a]` holds after `RESET` in a machine built with `font` (10_state.md R36, 20_memory.md R83): the table at
0x000 to 0x04F and 0x00 everywhere else (`FONT_BASE` is 0, so the index into the table is the address). This is also
what an address the memory list does not name reads as (log entry 7). -/
def Config.resetByte (font : FontTable) (a : Nat) : Byte := if h : a < 80 then font[a] else 0x00

end Sys2Proof
end

