-- ==== Sys2Proof/Machine/State.lean ====
section
/-!
DEFINITION. The state of the machine as plain data (spec 10_state.md R21 to R36), the reasons a step can end without a
next state, and the state after reset. Operations stand in the other files of Machine/.
-/

namespace Sys2Proof.Machine

/-- `STATE` (10_state.md R33). Codes 0, 1, 2; the code 3 is never produced and has no constructor (U26, log entry 6). -/
inductive Status where
  | running
  | awaitKey
  | halted
  deriving DecidableEq, Repr

/-- `ERR_KIND` (10_state.md R33, 60_exceptions.md R210). Codes 0 to 5; 6 and 7 are never produced (log entry 6). -/
inductive ErrKind where
  | none
  | unknownInstruction
  | stackOverflow
  | stackUnderflow
  | outOfBounds
  | keyIndex
  deriving DecidableEq, Repr

/-- The five fatal conditions with the value each records (60_exceptions.md R210). The spec describes what each leaves
behind (R216), so a fatal condition is a NEXT state, made by `raise` from one of these: no meaning and no step ever
answers `Outcome.fault`. This is safe: the halted machine is a state like any other and nothing is left out of it.
Log entry 1. -/
inductive Fault where
  /-- Raised by the CPU's step after fetch, for a word `w` that decodes to nothing (60_exceptions.md R211). Safe. -/
  | unknownInstruction (w : Word)
  /-- Raised by `CALL` at `pc` when the stack is full (60_exceptions.md R212). Safe. -/
  | stackOverflow (pc : Word)
  /-- Raised by `RET` at `pc` when the stack is empty (60_exceptions.md R213). Safe. -/
  | stackUnderflow (pc : Word)
  /-- Raised by fetch, `DRW`, `LD B, Vx`, `LD [I], Vx`, `LD Vx, [I]` for an access at `addr` (60_exceptions.md R214). Safe. -/
  | outOfBounds (addr : Word)
  /-- Raised by `SKP`, `SKNP` for a register value `a` above 15 (60_exceptions.md R215). Safe. -/
  | keyIndexOutOfRange (a : Byte)
  deriving DecidableEq, Repr

/-- Why the model gives no outcome. No instruction refuses. -/
inductive Refusal where
  /-- Raised by an arm of `exec` for an instruction without a meaning: none is left. Safe. -/
  | notModelled (mnemonic : String)
  /-- Raised by the host's `LOAD` of an image of `len` bytes, more than 3584: outside its precondition, and a model
  refuses it (10_state.md R46, U21). Safe. -/
  | imageTooLong (len : Nat)
  deriving DecidableEq, Repr

/-- The actions of the three agents (10_state.md R20, R46): the CPU's `STEP`, the timer's `TICK`, and the host's
`KEY_EVENT(k, v)`, `RESET` and `LOAD(image)`. -/
inductive AgentAction where
  | step
  | tick
  | keyEvent (k : Key) (v : Bool)
  | reset
  | load (image : List Byte)
  deriving DecidableEq, Repr

/-- What an instruction tells the fetch unit about the next `pc` (10_state.md R37, R25): `NEXT`, `SKIP` or `LOAD(t)`. -/
inductive NextPc where
  | next
  | skip
  | load (t : Word)
  deriving DecidableEq, Repr

/-- `MEM` (20_memory.md R70) as the bytes that differ from their reset value, by rising address (log entry 7), beside the
parameter that gives the reset values. -/
structure Memory where
  /-- THE PARAMETER `FONT` this machine is built with (00_scope.md R6, 20_memory.md R84): no action changes it. Log entry
  5. -/
  font : FontTable
  /-- The listed bytes. -/
  cells : List Host.Cell
  deriving DecidableEq, Repr

/-- `FB[px][py]` (10_state.md R30): 64 columns of 32 pixels, true for on. -/
abbrev Framebuffer := Vector (Vector Bool 32) 64

/-- The state of the machine. -/
structure State where
  /-- `V[0]` to `V[15]` (10_state.md R21). -/
  v : Vector Byte 16
  /-- The address register `I` (10_state.md R24). -/
  i : Word
  /-- The program counter (10_state.md R25). -/
  pc : Word
  /-- `SP`, the number of stack entries in use, 0 to 16 (10_state.md R27, log entry 6). -/
  sp : Fin 17
  /-- `STACK[0]` to `STACK[15]` (10_state.md R27). -/
  stack : Vector Word 16
  /-- The delay timer `DT` (10_state.md R28). -/
  dt : Byte
  /-- The sound timer `ST` (10_state.md R28). -/
  st : Byte
  /-- `KEY[0]` to `KEY[15]`, true for pressed (10_state.md R29). -/
  key : Vector Bool 16
  /-- The framebuffer (10_state.md R30). -/
  fb : Framebuffer
  /-- The memory (10_state.md R32, 20_memory.md R70). -/
  mem : Memory
  /-- `STATE` (10_state.md R33). -/
  status : Status
  /-- `ERR_KIND` (10_state.md R33). -/
  errKind : ErrKind
  /-- `ERR_INFO` (10_state.md R33). -/
  errInfo : Word
  /-- `WAIT_REG` (10_state.md R33). -/
  waitReg : Reg
  /-- THE MODEL'S OWN: how many bytes have been drawn from the free source `Rand8` (10_state.md R34). DESIGN CHOICE, log
  entry 4. -/
  draws : Nat
  /-- THE MODEL'S OWN: the actions still to come before the CPU acts by itself, the next one first; the order of the
  agents is the host's choice (10_state.md R20). DESIGN CHOICE, log entry 2. -/
  schedule : List AgentAction
  deriving DecidableEq, Repr

/-- The machine built with the table `font`, after `RESET` (10_state.md R36, 70_reset_and_hazards.md R250; `FONT` is an
argument, 00_scope.md R6). The two last fields are the model's own (DESIGN CHOICE, log entries 2 and 4). -/
def State.resetWith (font : FontTable) : State where
  v := Vector.replicate 16 0x00
  i := 0x0000
  pc := 0x0200
  sp := 0
  stack := Vector.replicate 16 0x0000
  dt := 0x00
  st := 0x00
  key := Vector.replicate 16 false
  fb := Vector.replicate 64 (Vector.replicate 32 false)
  mem := ⟨font, []⟩
  status := .running
  errKind := .none
  errInfo := 0
  waitReg := 0
  draws := 0
  schedule := []

/-- The machine after `RESET`, with the default `FONT` (00_scope.md R6). -/
def State.reset : State := State.resetWith Config.defaultFont

end Sys2Proof.Machine
end

