-- ==== Sys2Proof/Machine/Ops.lean ====
section
/-!
DEFINITION. The named operations over the state, grouped as the eight blocks of spec 10_state.md R37 to R44 group them:
the register file, memory, the fetch unit with fault entry and its undoing by reset, the stack, the timers, the keypad and
the framebuffer. Everything an instruction does goes through these.
-/

namespace Sys2Proof.Machine

/-! ### Register file (10_state.md R21, R39) -/

/-- The flag register VF = `V[15]` (10_state.md R22). -/
def vf : Reg := 15

/-- `V[x]` (00_scope.md R7). -/
def readV (s : State) (x : Reg) : Byte := s.v[x.val]

/-- `V[x] <- b` (00_scope.md R7); port R of 10_state.md R39. -/
def writeV (s : State) (x : Reg) (b : Byte) : State := { s with v := s.v.set x.val b }

/-- A flag as a byte, 0x00 or 0x01 (10_state.md R22). -/
def flagByte (f : Bool) : Byte := if f then 0x01 else 0x00

/-- `V[15] <- flag`; port F of 10_state.md R39. -/
def writeFlag (s : State) (f : Bool) : State := writeV s vf (flagByte f)

/-- `I <- a` (10_state.md R24). -/
def writeI (s : State) (a : Word) : State := { s with i := a }

/-! ### Memory (20_memory.md R70 to R74) -/

/-- The byte listed for `a`, or `unlisted`. -/
def readCells (unlisted : Byte) : List Host.Cell → Nat → Byte
  | [], _ => unlisted
  | c :: m, a => if c.1 = a then c.2 else readCells unlisted m a

/-- `MEM[a]`: the byte listed for `a`, or its reset value. -/
def Memory.read (m : Memory) (a : Nat) : Byte := readCells (Config.resetByte m.font a) m.cells a

/-- List `b` at `a`, before the first larger address. -/
def placeCell : List Host.Cell → Nat → Byte → List Host.Cell
  | [], a, b => [(a, b)]
  | c :: m, a, b => if a < c.1 then (a, b) :: c :: m else c :: placeCell m a b

/-- `MEM[a] <- b`, keeping the canonical form: an address at its reset value is not listed (log entry 7). -/
def Memory.write (m : Memory) (a : Nat) (b : Byte) : Memory :=
  let rest := m.cells.filter (fun c => c.1 != a)
  { m with cells := if b = Config.resetByte m.font a then rest else placeCell rest a b }

/-- The canonical form: addresses inside memory, strictly rising, none at its reset value (log entry 7). -/
abbrev Memory.wf (m : Memory) : Prop :=
  m.cells.Pairwise (fun c d => c.1 < d.1) ∧
    ∀ c ∈ m.cells, c.1 ≤ Config.addrMax ∧ c.2 ≠ Config.resetByte m.font c.1

/-- `MEM[addr]` to `MEM[addr + len - 1]`. -/
def Memory.readBytes (m : Memory) (addr len : Nat) : List Byte :=
  (List.range len).map (fun k => m.read (addr + k))

/-- Write bytes at rising addresses from `addr` on, one at a time (20_memory.md R74). -/
def Memory.writeBytes : Memory → Nat → List Byte → Memory
  | m, _, [] => m
  | m, addr, b :: bs => Memory.writeBytes (m.write addr b) (addr + 1) bs

/-- `CheckRange(addr, len)` over unbounded integers (20_memory.md R73). -/
def checkRange (addr len : Nat) : Except Fault Unit :=
  if 0 < len ∧ Config.addrMax < addr + len - 1 then .error (.outOfBounds (BitVec.ofNat 16 addr)) else .ok ()

/-- A read of `len` bytes at `addr`, its whole range checked first (20_memory.md R73, R74). -/
def memRead (s : State) (addr len : Nat) : Except Fault (List Byte) :=
  (checkRange addr len).map (fun _ => s.mem.readBytes addr len)

/-- A write of bytes at `addr` on, its whole range checked first (20_memory.md R73, R74). -/
def memWrite (s : State) (addr : Nat) (bytes : List Byte) : Except Fault State :=
  (checkRange addr bytes.length).map (fun _ => { s with mem := s.mem.writeBytes addr bytes })

/-- `MEM[a] ++ MEM[a+1]`: the first byte is the high byte (20_memory.md R75). -/
def Memory.wordAt (m : Memory) (a : Nat) : Word := m.read a ++ m.read (a + 1)

/-- Instruction fetch, `MemRead(pc, 2)` (10_state.md R45, 20_memory.md R74, R77). -/
def fetch (s : State) : Except Fault Word :=
  (checkRange s.pc.toNat 2).map (fun _ => s.mem.wordAt s.pc.toNat)

/-! ### Fetch unit: next pc, fault entry, waiting (10_state.md R37) -/

/-- Apply a next-pc command (10_state.md R25, R37). `pc` is a 16-bit register; the sum wraps only where no fetch could
have succeeded (R26, log entry 10). -/
def nextPc (s : State) : NextPc → State
  | .next => { s with pc := s.pc + 2 }
  | .skip => { s with pc := s.pc + 4 }
  | .load t => { s with pc := t }

/-- The default advance, `pc <- pc + 2` (10_state.md R25). -/
def advance (s : State) : State := nextPc s .next

/-- `pc <- pc + 4` if the condition holds, else `pc <- pc + 2` (10_state.md R25). -/
def skipIf (c : Bool) (s : State) : State := nextPc s (if c then .skip else .next)

/-- The code of a fatal condition (60_exceptions.md R210). -/
def Fault.kind : Fault → ErrKind
  | .unknownInstruction _ => .unknownInstruction
  | .stackOverflow _ => .stackOverflow
  | .stackUnderflow _ => .stackUnderflow
  | .outOfBounds _ => .outOfBounds
  | .keyIndexOutOfRange _ => .keyIndex

/-- What a fatal condition records in `ERR_INFO` (60_exceptions.md R210). -/
def Fault.info : Fault → Word
  | .unknownInstruction w => w
  | .stackOverflow pc => pc
  | .stackUnderflow pc => pc
  | .outOfBounds addr => addr
  | .keyIndexOutOfRange a => a.setWidth 16

/-- `raise F(info)`, TAKING A FATAL CONDITION: the machine is halted with its kind and info and every other piece of
state keeps its value (60_exceptions.md R216). -/
def raise (f : Fault) (s : State) : State :=
  { s with status := .halted, errKind := f.kind, errInfo := f.info }

/-- THE ONLY WAY BACK from a fatal condition: `RESET` (60_exceptions.md R218, 70_reset_and_hazards.md R250). All machine
state takes its reset value; the parameter `FONT` stays, and the byte source and the agents' order are not state of the
machine and go on. -/
def resetMachine (s : State) : State :=
  { State.resetWith s.mem.font with draws := s.draws, schedule := s.schedule }

/-- End an instruction that ran from `s`: its result, or the fatal condition it raised with every write discarded
(00_scope.md R9, 60_exceptions.md R216). -/
def settle (s : State) : Except Fault State → Host.Outcome State Fault Refusal
  | .ok t => .next t
  | .error f => .next (raise f s)

/-- The wait request of `LD Vx, K` (10_state.md R37, 44_key_timer.md R192). -/
def awaitKey (x : Reg) (s : State) : State := { s with waitReg := x, status := .awaitKey }

/-- The 2-bit code of `STATE` (10_state.md R33). -/
def Status.code : Status → BitVec 2
  | .running => 0
  | .awaitKey => 1
  | .halted => 2

/-- The 3-bit code of `ERR_KIND` (10_state.md R33). -/
def ErrKind.code : ErrKind → BitVec 3
  | .none => 0
  | .unknownInstruction => 1
  | .stackOverflow => 2
  | .stackUnderflow => 3
  | .outOfBounds => 4
  | .keyIndex => 5

/-- What `STEP` returns: (`STATE`, `ERR_KIND`) as they stand after it (10_state.md R45). -/
def report (s : State) : BitVec 2 × BitVec 3 := (s.status.code, s.errKind.code)

/-! ### Stack (10_state.md R27, R42) -/

/-- `push(v)`. -/
def push (v : Word) (s : State) : Except Fault State :=
  if h : s.sp.val = 16 then .error (.stackOverflow s.pc)
  else
    have hk : s.sp.val < 16 := by have := s.sp.isLt; omega
    .ok { s with stack := s.stack.set s.sp.val v hk, sp := ⟨s.sp.val + 1, by omega⟩ }

/-- `pop()`: the entry and the state with `SP` one lower; the entry keeps its value. -/
def pop (s : State) : Except Fault (Word × State) :=
  if h : s.sp.val = 0 then .error (.stackUnderflow s.pc)
  else
    have hk : s.sp.val - 1 < 16 := by have := s.sp.isLt; omega
    .ok (s.stack[s.sp.val - 1], { s with sp := ⟨s.sp.val - 1, by omega⟩ })

/-! ### Timers (10_state.md R28, R44) -/

/-- `read_dt()` (10_state.md R44). -/
def readDt (s : State) : Byte := s.dt

/-- `load_dt(v)` (10_state.md R44). -/
def loadDt (b : Byte) (s : State) : State := { s with dt := b }

/-- `load_st(v)` (10_state.md R44). -/
def loadSt (b : Byte) (s : State) : State := { s with st := b }

/-- One timer's count toward zero; it stops at 0 (60_exceptions.md R223). -/
def countDown (b : Byte) : Byte := if b.toNat > 0 then b - 1 else b

/-- The tone a `TICK` from this state emits: 1 exactly when `ST = 1` (60_exceptions.md R224). An output, not state
(10_state.md R35, log entry 9). -/
def toneOf (s : State) : Bool := s.st.toNat == 1

/-- `TICK()`: both timers count down from their pre-state values, and the tone (60_exceptions.md R223, R225). -/
def tick (s : State) : State × Bool := ({ s with dt := countDown s.dt, st := countDown s.st }, toneOf s)

/-! ### Keypad (10_state.md R29, R46) -/

/-- `KEY[k]`. -/
def keyDown (s : State) (k : Key) : Bool := s.key[k.val]

/-- `KEY[k] <- v`. -/
def writeKey (s : State) (k : Key) (v : Bool) : State := { s with key := s.key.set k.val v }

/-- The end of a wait: `V[WAIT_REG] <- k` and the core runs again (10_state.md R46, 60_exceptions.md R227). -/
def wake (k : Key) (s : State) : State :=
  { writeV s s.waitReg (BitVec.ofNat 8 k.val) with status := .running }

/-- `KEY_EVENT(k, v)` (10_state.md R46). -/
def keyEvent (k : Key) (v : Bool) (s : State) : State :=
  if s.status = .awaitKey ∧ keyDown s k = false ∧ v = true then wake k (writeKey s k v) else writeKey s k v

/-! ### Framebuffer (10_state.md R30, R43) -/

/-- `FB[px][py]`. -/
def Framebuffer.pixel (fb : Framebuffer) (px : Column) (py : Row) : Bool := fb[px.val][py.val]

/-- `FB[px][py] <- FB[px][py] ^ 1`. -/
def Framebuffer.invert (fb : Framebuffer) (px : Column) (py : Row) : Framebuffer :=
  fb.set px.val (fb[px.val].set py.val (!fb[px.val][py.val]))

/-- `clear()`: all 2048 pixels off (43_display.md R180). -/
def clearScreen (s : State) : State := { s with fb := Vector.replicate 64 (Vector.replicate 32 false) }

/-! ### Loading and observing (10_state.md R46) -/

/-- `LOAD(image)`: the bytes go to 0x200 on; an image over 3584 bytes is refused (10_state.md R46, U21). Allowed in any
state (log entry 3). -/
def loadImage (image : List Byte) (s : State) : Host.Outcome State Fault Refusal :=
  if image.length ≤ Config.progMaxBytes then
    .next { s with mem := s.mem.writeBytes Config.progBase image }
  else .refused (.imageTooLong image.length)

/-- What the host may read between actions (10_state.md R46). -/
structure Observation where
  fb : Framebuffer
  dt : Byte
  st : Byte
  key : Vector Bool 16
  status : Status
  errKind : ErrKind
  errInfo : Word
  deriving DecidableEq, Repr

/-- Observation changes nothing (10_state.md R46). -/
def observe (s : State) : Observation where
  fb := s.fb
  dt := s.dt
  st := s.st
  key := s.key
  status := s.status
  errKind := s.errKind
  errInfo := s.errInfo

/-- A state whose next fetch gives the word `w`: the CPU acts next and is running, `pc` leaves room for two bytes, and
they hold `w`, high byte first. What already holds is left as it is (log entry 11). -/
def placeWord (w : Word) (s : State) : State :=
  let pc := if s.pc.toNat + 1 ≤ Config.addrMax then s.pc else BitVec.ofNat 16 Config.progBase
  let t := if s.status = .running then s else { s with status := .running, errKind := .none, errInfo := 0 }
  { t with
    schedule := []
    pc := pc
    mem := s.mem.writeBytes pc.toNat [w.extractLsb' 8 8, w.extractLsb' 0 8] }

end Sys2Proof.Machine
end

