-- ==== Sys2Proof/Machine/Flags.lean ====
section
/-!
DEFINITION. The ALU of spec 10_state.md R40 with the table of 41_register_arithmetic.md R161, and the write of its
result: the flag to VF first, the result second (R162).
-/

namespace Sys2Proof.Machine

/-- The operation selector (41_register_arithmetic.md R161). -/
inductive AluOp where
  | passB
  | addNf
  | orOp
  | andOp
  | xorOp
  | add
  | sub
  | subn
  | shr
  | shl
  deriving DecidableEq, Repr

/-- The ALU's outputs (10_state.md R40): `res`, and `flag` where `flag_valid` is 1 (`none` where it is 0). -/
structure AluOut where
  res : Byte
  flag : Option Bool
  deriving DecidableEq, Repr

/-- The table of 41_register_arithmetic.md R161: `res` modulo 256, `flag` by comparison of the unsigned operands. -/
def alu : AluOp → Byte → Byte → AluOut
  | .passB, _, b => ⟨b, none⟩
  | .addNf, a, b => ⟨a + b, none⟩
  | .orOp, a, b => ⟨a ||| b, none⟩
  | .andOp, a, b => ⟨a &&& b, none⟩
  | .xorOp, a, b => ⟨a ^^^ b, none⟩
  | .add, a, b => ⟨a + b, some (decide (a.toNat + b.toNat > 255))⟩
  | .sub, a, b => ⟨a - b, some (decide (a.toNat ≥ b.toNat))⟩
  | .subn, a, b => ⟨b - a, some (decide (b.toNat ≥ a.toNat))⟩
  | .shr, a, _ => ⟨a >>> 1, some (a.getLsbD 0)⟩
  | .shl, a, _ => ⟨a <<< 1, some (a.getLsbD 7)⟩

/-- The comparator output `eq` (10_state.md R40, 41_register_arithmetic.md R161). -/
def aluEq (a b : Byte) : Bool := a == b

/-- Write an ALU result: port F first when the flag is valid, port R second (10_state.md R39,
41_register_arithmetic.md R162). With `x = 15` the result stays and the flag is lost. -/
def aluWrite (s : State) (x : Reg) (o : AluOut) : State :=
  match o.flag with
  | some f => writeV (writeFlag s f) x o.res
  | none => writeV s x o.res

/-- An ALU instruction: both operands were sampled before, the result is written, `pc` advances by 2. -/
def aluInto (op : AluOp) (x : Reg) (a b : Byte) (s : State) : State := advance (aluWrite s x (alu op a b))

end Sys2Proof.Machine
end

