-- ==== Sys2Proof/Machine/Operands.lean ====
section
/-!
DEFINITION. The operand forms of spec 30_encoding.md R103 and 44_key_timer.md R201: immediates, key indices, glyph
addresses, decimal digits, and the one addressing mode, memory at `I` plus an implicit offset without wrap.
-/

namespace Sys2Proof.Machine

/-- `zext_16(nnn)` (30_encoding.md R103). -/
def addrOf (nnn : BitVec 12) : Word := nnn.setWidth 16

/-- `zext_16` of a register's byte (40_control_flow.md R133, 44_key_timer.md R196). -/
def wordOf (b : Byte) : Word := b.setWidth 16

/-- A register's value as a key index; above 15 it is a fatal condition (44_key_timer.md R190, 60_exceptions.md R215). -/
def keyIndex (a : Byte) : Except Fault Key :=
  if h : a.toNat < 16 then .ok ⟨a.toNat, h⟩ else .error (.keyIndexOutOfRange a)

/-- The glyph address of a register's low nibble (42_memory_index.md R171). -/
def glyphAddr (a : Byte) : Word := BitVec.ofNat 16 (Config.fontBase + Config.glyphBytes * (a.toNat % 16))

/-- Hundreds, tens and ones of a byte (44_key_timer.md R199). -/
def decimalDigits (a : Byte) : List Byte :=
  [BitVec.ofNat 8 (a.toNat / 100), BitVec.ofNat 8 (a.toNat / 10 % 10), BitVec.ofNat 8 (a.toNat % 10)]

/-- The bytes `V[0]` to `V[x]` (10_state.md R39, 44_key_timer.md R197). -/
def blockOf (s : State) (x : Reg) : List Byte :=
  (List.range (x.val + 1)).map (fun k => readV s (Fin.ofNat 16 k))

/-- Write bytes to `V[k]`, `V[k+1]`, … (10_state.md R39, 44_key_timer.md R198). -/
def writeBlock : List Byte → Nat → State → State
  | [], _, s => s
  | b :: bs, k, s => writeBlock bs (k + 1) (writeV s (Fin.ofNat 16 k) b)

/-- A read of `len` bytes at `I` on (44_key_timer.md R201). -/
def readAtI (s : State) (len : Nat) : Except Fault (List Byte) := memRead s s.i.toNat len

/-- A write of bytes at `I` on; `I` is unchanged (44_key_timer.md R201). -/
def writeAtI (s : State) (bytes : List Byte) : Except Fault State := memWrite s s.i.toNat bytes

end Sys2Proof.Machine
end

