-- ==== Sys2Proof/Machine/ControlFlow.lean ====
section
/-!
DEFINITION. The control-flow family of spec 40_control_flow.md R130 to R138.
-/

namespace Sys2Proof.Machine

/-- `JP nnn` (R130). -/
def execJp (nnn : BitVec 12) (s : State) : Host.Outcome State Fault Refusal :=
  .next (nextPc s (.load (addrOf nnn)))

/-- `CALL nnn` (R131): the return address `pc + 2` is pushed. -/
def execCall (nnn : BitVec 12) (s : State) : Host.Outcome State Fault Refusal :=
  settle s ((push (s.pc + 2) s).map (fun t => nextPc t (.load (addrOf nnn))))

/-- `RET` (R132): the popped value is used as it is. -/
def execRet (s : State) : Host.Outcome State Fault Refusal :=
  settle s ((pop s).map (fun p => nextPc p.2 (.load p.1)))

/-- `JP V0, nnn` (R133): the sum is not reduced to 12 bits. -/
def execJpV0 (nnn : BitVec 12) (s : State) : Host.Outcome State Fault Refusal :=
  .next (nextPc s (.load (addrOf nnn + wordOf (readV s 0))))

/-- `SE Vx, nn` (R134). -/
def execSeImm (x : Reg) (nn : Byte) (s : State) : Host.Outcome State Fault Refusal :=
  .next (skipIf (aluEq (readV s x) nn) s)

/-- `SNE Vx, nn` (R135). -/
def execSneImm (x : Reg) (nn : Byte) (s : State) : Host.Outcome State Fault Refusal :=
  .next (skipIf (!aluEq (readV s x) nn) s)

/-- `SE Vx, Vy` (R136). -/
def execSeReg (x y : Reg) (s : State) : Host.Outcome State Fault Refusal :=
  .next (skipIf (aluEq (readV s x) (readV s y)) s)

/-- `SNE Vx, Vy` (R137). -/
def execSneReg (x y : Reg) (s : State) : Host.Outcome State Fault Refusal :=
  .next (skipIf (!aluEq (readV s x) (readV s y)) s)

end Sys2Proof.Machine
end

