-- ==== Sys2Proof/Machine/Display.lean ====
section
/-!
DEFINITION. The display family of spec 43_display.md R180 to R183, with the framebuffer block's `draw` (10_state.md R43).
-/

namespace Sys2Proof.Machine

/-- What drawing works on: the framebuffer and the collision found so far (43_display.md R181, `coll`). -/
structure Raster where
  fb : Framebuffer
  coll : Bool
  deriving DecidableEq, Repr

/-- The column a sprite pixel lands in, `(xv + c) mod 64` (43_display.md R182). -/
def landColumn (xv : Byte) (c : Nat) : Column := Fin.ofNat 64 (xv.toNat + c)

/-- The row a sprite pixel lands in, `(yv + r) mod 32` (43_display.md R182). -/
def landRow (yv : Byte) (r : Nat) : Row := Fin.ofNat 32 (yv.toNat + r)

/-- The sprite bit of column `c`: column 0 is bit 7 (43_display.md R182). -/
def spriteBit (row : Byte) (c : Nat) : Bool := row.getLsbD (7 - c)

/-- One pixel of a sprite row: a 0 leaves the screen alone, a 1 inverts its pixel and collides if it was on
(43_display.md R181). -/
def drawPixel (xv yv : Byte) (r : Nat) (row : Byte) (acc : Raster) (c : Nat) : Raster :=
  if spriteBit row c then
    { fb := acc.fb.invert (landColumn xv c) (landRow yv r)
      coll := acc.coll || acc.fb.pixel (landColumn xv c) (landRow yv r) }
  else acc

/-- The eight columns of row `r` (43_display.md R181). -/
def drawRow (xv yv : Byte) (r : Nat) (row : Byte) (acc : Raster) : Raster :=
  (List.range 8).foldl (drawPixel xv yv r row) acc

/-- The rows from row `r` on (43_display.md R181). -/
def drawRows (xv yv : Byte) : Nat → List Byte → Raster → Raster
  | _, [], acc => acc
  | r, row :: rows, acc => drawRows xv yv (r + 1) rows (drawRow xv yv r row acc)

/-- `draw(xv, yv, rows)`: the framebuffer with the sprite XORed in, and the collision (10_state.md R43). -/
def draw (xv yv : Byte) (rows : List Byte) (fb : Framebuffer) : Raster := drawRows xv yv 0 rows ⟨fb, false⟩

/-- `CLS` (R180). -/
def execCls (s : State) : Host.Outcome State Fault Refusal := .next (advance (clearScreen s))

/-- `DRW Vx, Vy, n` (R181): operands and sprite first, then the screen, then VF, which is always written. -/
def execDrw (x y : Reg) (n : BitVec 4) (s : State) : Host.Outcome State Fault Refusal :=
  settle s ((readAtI s n.toNat).map (fun rows =>
    let out := draw (readV s x) (readV s y) rows s.fb
    advance (writeFlag { s with fb := out.fb } out.coll)))

end Sys2Proof.Machine
end

