-- ==== Sys2Proof/Machine/KeyTimer.lean ====
section
/-!
DEFINITION. The key, timer, address-add and block-transfer family of spec 44_key_timer.md R190 to R201.
-/

namespace Sys2Proof.Machine

/-- `SKP Vx` (R190). -/
def execSkp (x : Reg) (s : State) : Host.Outcome State Fault Refusal :=
  settle s ((keyIndex (readV s x)).map (fun k => skipIf (keyDown s k) s))

/-- `SKNP Vx` (R191). -/
def execSknp (x : Reg) (s : State) : Host.Outcome State Fault Refusal :=
  settle s ((keyIndex (readV s x)).map (fun k => skipIf (!keyDown s k) s))

/-- `LD Vx, K` (R192): the core waits; `pc` advances at once; the key comes with a later `KEY_EVENT`. -/
def execLdVxK (x : Reg) (s : State) : Host.Outcome State Fault Refusal :=
  .next (advance (awaitKey x s))

/-- `LD Vx, DT` (R193). -/
def execLdVxDt (x : Reg) (s : State) : Host.Outcome State Fault Refusal :=
  .next (advance (writeV s x (readDt s)))

/-- `LD DT, Vx` (R194). -/
def execLdDtVx (x : Reg) (s : State) : Host.Outcome State Fault Refusal :=
  .next (advance (loadDt (readV s x) s))

/-- `LD ST, Vx` (R195): no tone comes from the instruction. -/
def execLdStVx (x : Reg) (s : State) : Host.Outcome State Fault Refusal :=
  .next (advance (loadSt (readV s x) s))

/-- `ADD I, Vx` (R196): modulo 65536, no flag, no check. -/
def execAddIVx (x : Reg) (s : State) : Host.Outcome State Fault Refusal :=
  .next (advance (writeI s (s.i + wordOf (readV s x))))

/-- `LD [I], Vx` (R197): `V[0]` to `V[x]` to memory at `I` on; `I` is unchanged. -/
def execLdMemVx (x : Reg) (s : State) : Host.Outcome State Fault Refusal :=
  settle s ((writeAtI s (blockOf s x)).map advance)

/-- `LD Vx, [I]` (R198): memory at `I` on to `V[0]` to `V[x]`; `I` is unchanged. -/
def execLdVxMem (x : Reg) (s : State) : Host.Outcome State Fault Refusal :=
  settle s ((readAtI s (x.val + 1)).map (fun bytes => advance (writeBlock bytes 0 s)))

/-- `LD B, Vx` (R199): the three decimal digits to memory at `I` on; `I` is unchanged. -/
def execLdBVx (x : Reg) (s : State) : Host.Outcome State Fault Refusal :=
  settle s ((writeAtI s (decimalDigits (readV s x))).map advance)

end Sys2Proof.Machine
end

