-- ==== Sys2Proof/Machine/MemoryIndex.lean ====
section
/-!
DEFINITION. The memory/index family of spec 42_memory_index.md R170 to R172.
-/

namespace Sys2Proof.Machine

/-- `LD I, nnn` (R170). -/
def execLdI (nnn : BitVec 12) (s : State) : Host.Outcome State Fault Refusal :=
  .next (advance (writeI s (addrOf nnn)))

/-- `LD F, Vx` (R171): reads no memory. -/
def execLdFVx (x : Reg) (s : State) : Host.Outcome State Fault Refusal :=
  .next (advance (writeI s (glyphAddr (readV s x))))

/-- Take the next byte of the free source `Rand8` (10_state.md R34): the byte, and the state that has taken it. -/
def drawByte (s : State) : Byte × State := (Config.rand8 s.draws, { s with draws := s.draws + 1 })

/-- `RND Vx, nn` (R172): the draw masked by `nn`. -/
def execRnd (x : Reg) (nn : Byte) (s : State) : Host.Outcome State Fault Refusal :=
  .next (aluInto .andOp x (drawByte s).1 nn (drawByte s).2)

end Sys2Proof.Machine
end

