-- ==== Sys2Proof/Machine/RegisterArith.lean ====
section
/-!
DEFINITION. The register and arithmetic family of spec 41_register_arithmetic.md R150 to R162.
-/

namespace Sys2Proof.Machine

/-- `LD Vx, nn` (R150). -/
def execLdImm (x : Reg) (nn : Byte) (s : State) : Host.Outcome State Fault Refusal :=
  .next (aluInto .passB x (readV s x) nn s)

/-- `ADD Vx, nn` (R151): no flag. -/
def execAddImm (x : Reg) (nn : Byte) (s : State) : Host.Outcome State Fault Refusal :=
  .next (aluInto .addNf x (readV s x) nn s)

/-- `LD Vx, Vy` (R152). -/
def execLdReg (x y : Reg) (s : State) : Host.Outcome State Fault Refusal :=
  .next (aluInto .passB x (readV s x) (readV s y) s)

/-- `OR Vx, Vy` (R153): VF is not written as a flag. -/
def execOrReg (x y : Reg) (s : State) : Host.Outcome State Fault Refusal :=
  .next (aluInto .orOp x (readV s x) (readV s y) s)

/-- `AND Vx, Vy` (R154). -/
def execAndReg (x y : Reg) (s : State) : Host.Outcome State Fault Refusal :=
  .next (aluInto .andOp x (readV s x) (readV s y) s)

/-- `XOR Vx, Vy` (R155). -/
def execXorReg (x y : Reg) (s : State) : Host.Outcome State Fault Refusal :=
  .next (aluInto .xorOp x (readV s x) (readV s y) s)

/-- `ADD Vx, Vy` (R156): flag is the carry out. -/
def execAddReg (x y : Reg) (s : State) : Host.Outcome State Fault Refusal :=
  .next (aluInto .add x (readV s x) (readV s y) s)

/-- `SUB Vx, Vy` (R157): flag is not-borrow. -/
def execSub (x y : Reg) (s : State) : Host.Outcome State Fault Refusal :=
  .next (aluInto .sub x (readV s x) (readV s y) s)

/-- `SHR Vx` (R158): `V[x]` in place; `y` is ignored. -/
def execShr (x _y : Reg) (s : State) : Host.Outcome State Fault Refusal :=
  .next (aluInto .shr x (readV s x) 0 s)

/-- `SUBN Vx, Vy` (R159): flag is not-borrow of `V[y] - V[x]`. -/
def execSubn (x y : Reg) (s : State) : Host.Outcome State Fault Refusal :=
  .next (aluInto .subn x (readV s x) (readV s y) s)

/-- `SHL Vx` (R160): `V[x]` in place; `y` is ignored. -/
def execShl (x _y : Reg) (s : State) : Host.Outcome State Fault Refusal :=
  .next (aluInto .shl x (readV s x) 0 s)

end Sys2Proof.Machine
end

