-- ==== Sys2Proof/Machine/Cycle.lean ====
section
/-!
DEFINITION. The actions of the three agents (spec 10_state.md R20, R45, R46): the CPU's fetch, decode and execute, and the
performance of any one action. Step.lean calls these.
-/

namespace Sys2Proof.Machine

/-- `STEP()` while running: fetch, decode, execute, in the order of checks of 60_exceptions.md R219. -/
def runInstruction (s : State) : Host.Outcome State Fault Refusal :=
  match fetch s with
  | .error f => .next (raise f s)
  | .ok w =>
    match decodeWord w with
    | none => .next (raise (.unknownInstruction w) s)
    | some i => exec i s

/-- `STEP()` (10_state.md R45): a halted or waiting core changes nothing (60_exceptions.md R217, R227). -/
def cpuStep (s : State) : Host.Outcome State Fault Refusal :=
  match s.status with
  | .halted => .next s
  | .awaitKey => .next s
  | .running => runInstruction s

/-- Perform one action of an agent (10_state.md R20, R46). -/
def act (a : AgentAction) (s : State) : Host.Outcome State Fault Refusal :=
  match a with
  | .step => cpuStep s
  | .tick => .next (tick s).1
  | .keyEvent k v => .next (keyEvent k v s)
  | .reset => .next (resetMachine s)
  | .load image => loadImage image s

/-- The action that comes next is the head of the schedule; when none is left, the CPU acts (log entry 2). -/
def nextAction (s : State) : AgentAction × List AgentAction :=
  match s.schedule with
  | [] => (.step, [])
  | a :: rest => (a, rest)

/-- The tone the next action emits: that of a `TICK`, none of any other (60_exceptions.md R224, log entry 9). -/
def emittedTone (s : State) : Bool :=
  match (nextAction s).1 with
  | .tick => (tick s).2
  | .step | .keyEvent _ _ | .reset | .load _ => false

/-- A launch: `RESET` followed by one `LOAD(image)` (10_state.md R46, 70_reset_and_hazards.md R252, R253). -/
def launch (image : List Byte) (s : State) : Host.Outcome State Fault Refusal := loadImage image (resetMachine s)

end Sys2Proof.Machine
end

