-- ==== Sys2Proof/Machine/Step.lean ====
section
/-!
DEFINITION. One step of the whole machine: the agent whose turn it is acts (spec 10_state.md R20). With an empty schedule
that is the CPU's `STEP` (R45).
-/

namespace Sys2Proof.Machine

/-- One action: the head of the schedule, or the CPU's `STEP` when the schedule is empty. -/
def step (s : State) : Host.Outcome State Fault Refusal :=
  act (nextAction s).1 { s with schedule := (nextAction s).2 }

/-- The state with the instruction whose bits are `w` (bits above `nbits` are 0) where the next fetch reads it, so that
the very next step runs it. It stands for the host's `LOAD` of a program (log entry 11). -/
def State.withFetchWord (s : State) (nbits w : Nat) : State := placeWord (BitVec.ofNat 16 (w % 2 ^ nbits)) s

end Sys2Proof.Machine
end

