-- ==== Sys2Proof/Safety.lean ====
section
/-!
DEFINITION. The terms claims are stated in: the pieces of state and what it means that only some of them change, a run
into a fatal condition, the invariant of the machine, the tables of the spec about all instructions (which registers each
reads and writes, 10_state.md R23; which condition halts it, 60_exceptions.md R210), where a sprite lands, and the
conventional end of a program (70_reset_and_hazards.md R258).
-/

namespace Sys2Proof.Machine

/-- A word of format `NNN` by its digits (30_encoding.md R102). -/
def wordNNN (op nnn : Nat) : Word := BitVec.ofNat 16 (op * 0x1000 + nnn)

/-- A word of format `XNN` or `X` by its digits (30_encoding.md R102). -/
def wordXNN (op x nn : Nat) : Word := BitVec.ofNat 16 (op * 0x1000 + x * 0x100 + nn)

/-- A word of format `XY` or `XYN` by its digits (30_encoding.md R102). -/
def wordXYN (op x y n : Nat) : Word := BitVec.ofNat 16 (op * 0x1000 + x * 0x100 + y * 0x10 + n)

/-- The pieces of state, as 10_state.md R36 lists them, the parameter `FONT`, and the model's own two. -/
inductive StatePart where
  | v (r : Reg)
  | i
  | pc
  | sp
  | stack (k : Fin 16)
  | dt
  | st
  | key (k : Key)
  | pixel (px : Column) (py : Row)
  | mem (a : Nat)
  | font
  | status
  | errKind
  | errInfo
  | waitReg
  | draws
  | schedule
  deriving DecidableEq, Repr

/-- A piece of state reads the same in two states. Memory is compared byte by byte, through the model's read. -/
def StatePart.Same (s t : State) : StatePart → Prop
  | .v r => readV t r = readV s r
  | .i => t.i = s.i
  | .pc => t.pc = s.pc
  | .sp => t.sp = s.sp
  | .stack k => t.stack[k.val] = s.stack[k.val]
  | .dt => t.dt = s.dt
  | .st => t.st = s.st
  | .key k => keyDown t k = keyDown s k
  | .pixel px py => t.fb.pixel px py = s.fb.pixel px py
  | .mem a => t.mem.read a = s.mem.read a
  | .font => t.mem.font = s.mem.font
  | .status => t.status = s.status
  | .errKind => t.errKind = s.errKind
  | .errInfo => t.errInfo = s.errInfo
  | .waitReg => t.waitReg = s.waitReg
  | .draws => t.draws = s.draws
  | .schedule => t.schedule = s.schedule

/-- The FRAME: every piece of state outside `changes` reads in `t` as in `s`. -/
def OnlyChanges (s t : State) (changes : StatePart → Prop) : Prop := ∀ p : StatePart, ¬ changes p → p.Same s t

/-- The registers no instruction reads: `ST` and the four status registers (10_state.md R28, R33). -/
def isHidden (p : StatePart) : Prop := p ∈ [.st, .status, .errKind, .errInfo, .waitReg]

/-- The outcome is the halted state of a fatal condition: its kind and info recorded, and every other piece of state,
`pc` among them, as in the pre-state (60_exceptions.md R216). -/
def HaltsWith (o : Host.Outcome State Fault Refusal) (s : State) (kind : ErrKind) (info : Word) : Prop :=
  ∃ t, o = .next t ∧ t.status = .halted ∧ t.errKind = kind ∧ t.errInfo = info ∧
    OnlyChanges s t (fun p => p ∈ [StatePart.status, StatePart.errKind, StatePart.errInfo])

/-- No fatal condition is recorded: the premise or conclusion of a claim about a correct run (60_exceptions.md R217). -/
abbrev noFault (s : State) : Prop := s.errKind = .none

/-- THE INVARIANT of the machine. -/
structure MachineInv (s : State) : Prop where
  /-- Memory keeps its canonical form (log entry 7). -/
  memCanonical : s.mem.wf
  /-- `STATE = HALTED` if and only if `ERR_KIND` is not `NONE` (10_state.md R33). -/
  haltedIffError : s.status = .halted ↔ s.errKind ≠ .none
  /-- `ERR_INFO` is 0 when `ERR_KIND = NONE` (10_state.md R33). -/
  noErrorNoInfo : s.errKind = .none → s.errInfo = 0
  /-- `pc <= 0x10FE` always (10_state.md R26). -/
  pcBound : s.pc.toNat ≤ 0x10FE
  /-- Every stack entry is a value some `CALL` pushed, at most 0x1000, or 0 (10_state.md R26). -/
  returnBound : ∀ k : Fin 16, s.stack[k.val].toNat ≤ 0x1000

/-- The conventional end of a program: running, and the instruction at `pc` is `JP pc` (70_reset_and_hazards.md R258).
The hardware does not stop there. -/
def Ended (s : State) : Prop :=
  s.status = .running ∧ s.pc.toNat ≤ 0xFFE ∧ s.mem.wordAt s.pc.toNat = 0x1000 ||| s.pc

/-- The column "writes" of 10_state.md R23. -/
def regWritten (r : Reg) : Instr → Prop
  | .ldImm x _ | .addImm x _ | .ldReg x _ | .orReg x _ | .andReg x _ | .xorReg x _ | .rnd x _ | .ldVxDt x => r = x
  | .addReg x _ | .sub x _ | .subn x _ | .shr x _ | .shl x _ => r = vf ∨ r = x
  | .drw _ _ _ => r = vf
  | .ldVxMem x => r ≤ x
  | .cls | .ret | .jp _ | .call _ | .ldI _ | .jpV0 _ | .seImm _ _ | .sneImm _ _ | .seReg _ _ | .sneReg _ _
  | .skp _ | .sknp _ | .ldVxK _ | .ldDtVx _ | .ldStVx _ | .addIVx _ | .ldFVx _ | .ldBVx _ | .ldMemVx _ => False

/-- The column "reads" of 10_state.md R23. -/
def regRead (r : Reg) : Instr → Prop
  | .seImm x _ | .sneImm x _ | .addImm x _ | .shr x _ | .shl x _ | .skp x | .sknp x | .ldDtVx x | .ldStVx x
  | .addIVx x | .ldFVx x | .ldBVx x => r = x
  | .seReg x y | .sneReg x y | .orReg x y | .andReg x y | .xorReg x y | .addReg x y | .sub x y | .subn x y
  | .drw x y _ => r = x ∨ r = y
  | .ldReg _ y => r = y
  | .jpV0 _ => r = 0
  | .ldMemVx x => r ≤ x
  | .cls | .ret | .jp _ | .call _ | .ldI _ | .ldImm _ _ | .rnd _ _ | .ldVxDt _ | .ldVxK _ | .ldVxMem _ => False

/-- Which instruction may change which piece of state when it runs from `s`: general registers by 10_state.md R23, `I` by
R24, `SP` and `STACK` by R27, the timers by R28, the framebuffer by R30, memory by 20_memory.md R76, the status registers by
R33, and nothing else by any instruction. `pc` may change in all. -/
def mayChange (i : Instr) (s : State) : StatePart → Prop
  | .v r => regWritten r i
  | .i => (∃ nnn, i = .ldI nnn) ∨ (∃ x, i = .ldFVx x) ∨ (∃ x, i = .addIVx x)
  | .pc => True
  | .sp => (∃ nnn, i = .call nnn) ∨ i = .ret
  | .stack k => ∃ nnn, i = .call nnn ∧ k.val = s.sp.val
  | .dt => ∃ x, i = .ldDtVx x
  | .st => ∃ x, i = .ldStVx x
  | .key _ => False
  | .pixel _ _ => i = .cls ∨ ∃ x y n, i = .drw x y n
  | .mem a => (∃ x, i = .ldBVx x ∧ s.i.toNat ≤ a ∧ a ≤ s.i.toNat + 2) ∨
      (∃ x : Reg, i = .ldMemVx x ∧ s.i.toNat ≤ a ∧ a ≤ s.i.toNat + x.val)
  | .status => (∃ x, i = .ldVxK x) ∨ (∃ nnn, i = .call nnn) ∨ i = .ret ∨ (∃ x y n, i = .drw x y n) ∨
      (∃ x, i = .skp x) ∨ (∃ x, i = .sknp x) ∨ (∃ x, i = .ldBVx x) ∨ (∃ x, i = .ldMemVx x) ∨ ∃ x, i = .ldVxMem x
  | .errKind | .errInfo => (∃ nnn, i = .call nnn) ∨ i = .ret ∨ (∃ x y n, i = .drw x y n) ∨
      (∃ x, i = .skp x) ∨ (∃ x, i = .sknp x) ∨ (∃ x, i = .ldBVx x) ∨ (∃ x, i = .ldMemVx x) ∨ ∃ x, i = .ldVxMem x
  | .waitReg => ∃ x, i = .ldVxK x
  | .draws => ∃ x nn, i = .rnd x nn
  | .font => False
  | .schedule => False

/-- The fatal condition an instruction raises when it runs from `s`, with what it records; `none` when it runs normally
(the table of 60_exceptions.md R210). -/
def fatalCondition (i : Instr) (s : State) : Option (ErrKind × Word) :=
  match i with
  | .call _ => if s.sp.val = 16 then some (.stackOverflow, s.pc) else none
  | .ret => if s.sp.val = 0 then some (.stackUnderflow, s.pc) else none
  | .drw _ _ n => if n.toNat > 0 ∧ s.i.toNat + n.toNat - 1 > 0xFFF then some (.outOfBounds, s.i) else none
  | .ldBVx _ => if s.i.toNat + 2 > 0xFFF then some (.outOfBounds, s.i) else none
  | .ldMemVx x => if s.i.toNat + x.val > 0xFFF then some (.outOfBounds, s.i) else none
  | .ldVxMem x => if s.i.toNat + x.val > 0xFFF then some (.outOfBounds, s.i) else none
  | .skp x => if (readV s x).toNat > 15 then some (.keyIndex, BitVec.ofNat 16 (readV s x).toNat) else none
  | .sknp x => if (readV s x).toNat > 15 then some (.keyIndex, BitVec.ofNat 16 (readV s x).toNat) else none
  | .cls | .jp _ | .ldI _ | .jpV0 _ | .seImm _ _ | .sneImm _ _ | .seReg _ _ | .sneReg _ _ | .ldImm _ _ | .addImm _ _
  | .ldReg _ _ | .orReg _ _ | .andReg _ _ | .xorReg _ _ | .addReg _ _ | .sub _ _ | .shr _ _ | .subn _ _ | .shl _ _
  | .rnd _ _ | .ldVxDt _ | .ldVxK _ | .ldDtVx _ | .ldStVx _ | .addIVx _ | .ldFVx _ => none

/-- The registers of `isHidden` that an instruction writes when it runs from `s`, so that they may not depend on their old
value: `ST` by `LD ST, Vx` (10_state.md R28), `STATE` and `WAIT_REG` by `LD Vx, K` (44_key_timer.md R192), and `STATE`,
`ERR_KIND`, `ERR_INFO` by a fatal condition (60_exceptions.md R216). -/
def hiddenWritten (i : Instr) (s : State) (p : StatePart) : Prop :=
  (p = .st ∧ ∃ x, i = .ldStVx x) ∨
  (p ∈ [StatePart.status, .waitReg] ∧ ∃ x, i = .ldVxK x) ∨
  (p ∈ [StatePart.status, .errKind, .errInfo] ∧ fatalCondition i s ≠ none)

/-- The values `pc` may take after an instruction that runs normally from `s`: the default advance, a skip, or the target
of a jump, call or return (10_state.md R25). -/
def nextPcs (i : Instr) (s : State) : List Word :=
  match i with
  | .jp nnn | .call nnn => [BitVec.ofNat 16 nnn.toNat]
  | .jpV0 nnn => [BitVec.ofNat 16 (nnn.toNat + (readV s 0).toNat)]
  | .ret => (s.stack.toList[s.sp.val - 1]?).toList
  | .seImm _ _ | .sneImm _ _ | .seReg _ _ | .sneReg _ _ | .skp _ | .sknp _ => [s.pc + 2, s.pc + 4]
  | .cls | .ldI _ | .ldImm _ _ | .addImm _ _ | .ldReg _ _ | .orReg _ _ | .andReg _ _ | .xorReg _ _ | .addReg _ _
  | .sub _ _ | .shr _ _ | .subn _ _ | .shl _ _ | .rnd _ _ | .drw _ _ _ | .ldVxDt _ | .ldVxK _ | .ldDtVx _ | .ldStVx _
  | .addIVx _ | .ldFVx _ | .ldBVx _ | .ldMemVx _ | .ldVxMem _ => [s.pc + 2]

/-- A 1 bit of the sprite at `I` with `n` rows, drawn from (`xv`, `yv`), lands on the pixel (`px`, `py`): row `r`, column
`c` lands at `((xv + c) mod 64, (yv + r) mod 32)` and is bit `7 - c` of the byte at `I + r` (43_display.md R182). -/
def SpriteCovers (s : State) (xv yv : Byte) (n : Nat) (px : Column) (py : Row) : Prop :=
  ∃ r c : Nat, r < n ∧ c < 8 ∧ px.val = (xv.toNat + c) % 64 ∧ py.val = (yv.toNat + r) % 32 ∧
    (s.mem.read (s.i.toNat + r)).toNat.testBit (7 - c) = true

/-- The states of `n` ticks one after another (60_exceptions.md R223). -/
def ticks : Nat → State → State
  | 0, s => s
  | n + 1, s => ticks n (tick s).1

end Sys2Proof.Machine
end

