-- ==== Sys2Proof/Certificates/Slice0/Obligations.lean ====
section
/-!
DEFINITION. The statements for the provers, from the numbered rules of spec/. A frame is written `OnlyChanges s t parts`:
every piece of state outside `parts`, every byte of memory among them, reads in `t` as in `s`. A run into a fatal
condition is `HaltsWith`: halted, kind and info recorded, everything else as before.
-/

open Sys2Proof Sys2Proof.Machine

/-! ### Encoding -/

/-- Decoding the word of a well-formed instruction gives it back, alone and at the head of any bytes, the high byte first
(30_encoding.md R100, R101, R102, R105, R106). -/
def Obligations.DecodeInvertsEncode : Prop :=
  ∀ i : Instr, i.wellFormed = true →
    decodeWord (encode i) = some i ∧
    ∀ rest : List Byte, decode (bytesOfWord (encode i) ++ rest) = .ok (i, rest)

/-- A word that decodes is the word of what it decodes to: each defined word has one meaning and no bit of it is dropped
(30_encoding.md R105, R106). -/
def Obligations.EncodeInvertsDecode : Prop :=
  ∀ (w : Word) (i : Instr), decodeWord w = some i → encode i = w ∧ i.wellFormed = true

/-- Every word selects exactly the row of the opcode map of the instruction it decodes to, and no row when it decodes to
nothing; so the 34 rows are disjoint (30_encoding.md R105). -/
def Obligations.OpcodeMapSelectsOneRow : Prop :=
  opcodeMap.length = 34 ∧
  ∀ w : Word, (opcodeMap.filter (fun r => r.selects w)).map (fun r => r.mnemonic) =
    (decodeWord w).toList.map Instr.mnemonic

/-- The words that decode to nothing are the listed ones, family by family (30_encoding.md R107, R108, R109). -/
def Obligations.UnknownWordsAreTheListedOnes : Prop :=
  ∀ w : Word, decodeWord w = none ↔
    ((w.toNat / 0x1000 = 0x0 ∧ w ≠ 0x00E0 ∧ w ≠ 0x00EE) ∨
     (w.toNat / 0x1000 = 0x5 ∧ w.toNat % 16 ≠ 0) ∨
     (w.toNat / 0x1000 = 0x8 ∧ w.toNat % 16 ∈ [0x8, 0x9, 0xA, 0xB, 0xC, 0xD, 0xF]) ∨
     (w.toNat / 0x1000 = 0x9 ∧ w.toNat % 16 ≠ 0) ∨
     (w.toNat / 0x1000 = 0xE ∧ w.toNat % 256 ∉ [0x9E, 0xA1]) ∨
     (w.toNat / 0x1000 = 0xF ∧ w.toNat % 256 ∉ [0x07, 0x0A, 0x15, 0x18, 0x1E, 0x29, 0x33, 0x55, 0x65]))

/-- Words written out from the patterns of 30_encoding.md R105, one or two of each family, decode to what they stand for. -/
def Obligations.WrittenOutWordsDecode : Prop :=
  decodeWord 0x00E0 = some .cls ∧ decodeWord 0x00EE = some .ret ∧ decodeWord 0x1ABC = some (.jp 0xABC) ∧
  decodeWord 0x3305 = some (.seImm 3 0x05) ∧ decodeWord 0x6A42 = some (.ldImm 10 0x42) ∧
  decodeWord 0x8127 = some (.subn 1 2) ∧ decodeWord 0xA2F0 = some (.ldI 0x2F0) ∧
  decodeWord 0xD012 = some (.drw 0 1 2) ∧ decodeWord 0xE4A1 = some (.sknp 4) ∧ decodeWord 0xF333 = some (.ldBVx 3)

/-! ### The step -/

/-- When the two bytes at `pc` decode to a well-formed instruction, the machine's step runs it: with no host action
scheduled and the core running, `step` is `exec` of it (10_state.md R45). The empty schedule is the model's form of "the
CPU acts next" (log entry 2). -/
def Obligations.StepRunsTheDecodedInstruction : Prop :=
  ∀ (s : State) (i : Instr), s.schedule = [] → s.status = .running → s.pc.toNat ≤ 0xFFE →
    decode [s.mem.read s.pc.toNat, s.mem.read (s.pc.toNat + 1)] = .ok (i, []) → i.wellFormed = true →
    step s = exec i s

/-- The scheduled actions are performed one a step, the first first, and with none left the CPU acts (10_state.md R20,
R45, R46). The schedule is the model's form of the host's choice of order (log entry 2). -/
def Obligations.ScheduledActionsAreTaken : Prop :=
  ∀ s : State,
    (s.schedule = [] → step s = cpuStep s ∧ emittedTone s = false) ∧
    (∀ a rest, s.schedule = a :: rest → step s = act a { s with schedule := rest } ∧
      (emittedTone s = true ↔ a = .tick ∧ s.st.toNat = 1)) ∧
    act .step s = cpuStep s ∧ act .tick s = .next (tick s).1 ∧ act .reset s = .next (resetMachine s) ∧
    (∀ k v, act (.keyEvent k v) s = .next (keyEvent k v s))

/-- The word placed where the next instruction is fetched is the instruction the very next step runs, from any state
(log entry 11). -/
def Obligations.PlacedWordRunsNext : Prop :=
  ∀ (s : State) (w : Nat) (i : Instr), decodeTableWord 16 w = some i →
    step (s.withFetchWord 16 w) = exec i (s.withFetchWord 16 w)

/-- An access is legal exactly when it is empty or its last byte is at most 0xFFF; otherwise it is out of bounds at its
base address modulo 65536 (20_memory.md R73). -/
def Obligations.CheckRangeRejectsExactly : Prop :=
  ∀ addr len : Nat,
    (len = 0 ∨ addr + len ≤ 0x1000 → checkRange addr len = .ok ()) ∧
    (0 < len ∧ 0x1000 < addr + len →
      ∃ a : Word, a.toNat = addr % 65536 ∧ checkRange addr len = .error (.outOfBounds a))

/-- Fetch reads two bytes at any `pc` up to 0xFFE, even or odd, the first as the high byte; above that the step is out of
bounds at `pc` (20_memory.md R75, R77). -/
def Obligations.FetchIsBigEndianAndBounded : Prop :=
  ∀ s : State,
    (s.pc.toNat ≤ 0xFFE → ∃ w : Word, fetch s = .ok w ∧
      w.toNat = 256 * (s.mem.read s.pc.toNat).toNat + (s.mem.read (s.pc.toNat + 1)).toNat) ∧
    (0xFFE < s.pc.toNat → fetch s = .error (.outOfBounds s.pc) ∧
      (s.status = .running → HaltsWith (cpuStep s) s .outOfBounds s.pc))

/-- The checks of one step come in a fixed order and the first that fails is reported: fetch bounds, unknown word, the
instruction's own condition; a step that fails none is not halted and records nothing (60_exceptions.md R210, R211, R216,
R219). -/
def Obligations.FatalConditionsInOrder : Prop :=
  ∀ s : State, s.status = .running →
    (0xFFE < s.pc.toNat → HaltsWith (cpuStep s) s .outOfBounds s.pc) ∧
    (s.pc.toNat ≤ 0xFFE →
      (decodeWord (s.mem.wordAt s.pc.toNat) = none →
        HaltsWith (cpuStep s) s .unknownInstruction (s.mem.wordAt s.pc.toNat)) ∧
      ∀ i, decodeWord (s.mem.wordAt s.pc.toNat) = some i →
        (∀ kind info, fatalCondition i s = some (kind, info) → HaltsWith (cpuStep s) s kind info) ∧
        (fatalCondition i s = none →
          ∃ t, cpuStep s = .next t ∧ t.status ≠ .halted ∧ t.errKind = s.errKind ∧ t.errInfo = s.errInfo))

/-- THE MODEL'S CHOICE of outcomes: a step always answers a next state, except the refused load of an image over 3584 bytes.
That a fatal condition and the STEP of a halted core are next states is log entry 1; that the agents' actions come from a
schedule is log entry 2; that a load of at most 3584 bytes is accepted in every state, also in the middle of a run, is log
entry 3 (the spec leaves it open in U22). -/
def Obligations.StepAnswersANextState : Prop :=
  ∀ s : State,
    (∃ t, step s = .next t) ∨
    (∃ image rest, s.schedule = AgentAction.load image :: rest ∧ 3584 < image.length ∧
      step s = .refused (.imageTooLong image.length))

/-! ### Control flow (40_control_flow.md) -/

/-- `JP nnn` and `JP V0, nnn` (R130, R133). -/
def Obligations.JumpsSetThePc : Prop :=
  ∀ (nnn : BitVec 12) (s : State),
    (decodeWord (wordNNN 0x1 nnn.toNat) = some (.jp nnn) ∧
      ∃ t, exec (.jp nnn) s = .next t ∧ t.pc.toNat = nnn.toNat ∧ OnlyChanges s t (fun p => p ∈ [StatePart.pc])) ∧
    (decodeWord (wordNNN 0xB nnn.toNat) = some (.jpV0 nnn) ∧
      ∃ t, exec (.jpV0 nnn) s = .next t ∧ t.pc.toNat = nnn.toNat + (readV s 0).toNat ∧
        OnlyChanges s t (fun p => p ∈ [StatePart.pc]))

/-- `CALL nnn` (R131): the return address goes to `STACK[SP]`; at `SP = 16` it overflows. -/
def Obligations.CallPushesTheReturnAddress : Prop :=
  ∀ (nnn : BitVec 12) (s : State),
    decodeWord (wordNNN 0x2 nnn.toNat) = some (.call nnn) ∧
    (∀ k : Fin 16, s.sp.val = k.val →
      ∃ t, exec (.call nnn) s = .next t ∧ t.stack[k.val].toNat = (s.pc.toNat + 2) % 65536 ∧
        t.sp.val = k.val + 1 ∧ t.pc.toNat = nnn.toNat ∧
        OnlyChanges s t (fun p => p ∈ [StatePart.pc, StatePart.sp, StatePart.stack k])) ∧
    (s.sp.val = 16 → HaltsWith (exec (.call nnn) s) s .stackOverflow s.pc)

/-- `RET` (R132): the popped entry becomes `pc` and stays in the stack; at `SP = 0` it underflows. -/
def Obligations.ReturnPopsIntoThePc : Prop :=
  ∀ s : State,
    decodeWord 0x00EE = some .ret ∧
    (∀ k : Fin 16, s.sp.val = k.val + 1 →
      ∃ t, exec .ret s = .next t ∧ t.pc = s.stack[k.val] ∧ t.sp.val = k.val ∧
        OnlyChanges s t (fun p => p ∈ [StatePart.pc, StatePart.sp])) ∧
    (s.sp.val = 0 → HaltsWith (exec .ret s) s .stackUnderflow s.pc)

/-- A call that succeeds, any code that leaves `SP` and `STACK` as the call left them, and a return: `pc` is the address
after the call and the depth is as before (R131, R132, 90_conflicts.md C1). -/
def Obligations.CallThenReturnComesBack : Prop :=
  ∀ (nnn : BitVec 12) (s : State), s.sp.val < 16 →
    ∃ t, exec (.call nnn) s = .next t ∧
      ∀ body : State, body.sp = t.sp → (∀ k : Fin 16, body.stack[k.val] = t.stack[k.val]) →
        ∃ u, exec .ret body = .next u ∧ u.pc = s.pc + 2 ∧ u.sp = s.sp

/-- `SE Vx, nn` and `SNE Vx, nn` (R134, R135). -/
def Obligations.SkipsOnAnImmediate : Prop :=
  ∀ (x : Reg) (nn : Byte) (s : State),
    (decodeWord (wordXNN 0x3 x.val nn.toNat) = some (.seImm x nn) ∧
      ∃ t, exec (.seImm x nn) s = .next t ∧ t.pc = (if readV s x = nn then s.pc + 4 else s.pc + 2) ∧
        OnlyChanges s t (fun p => p ∈ [StatePart.pc])) ∧
    (decodeWord (wordXNN 0x4 x.val nn.toNat) = some (.sneImm x nn) ∧
      ∃ t, exec (.sneImm x nn) s = .next t ∧ t.pc = (if readV s x ≠ nn then s.pc + 4 else s.pc + 2) ∧
        OnlyChanges s t (fun p => p ∈ [StatePart.pc]))

/-- `SE Vx, Vy` and `SNE Vx, Vy` (R136, R137); a low nibble other than 0 is no instruction. -/
def Obligations.SkipsOnRegisters : Prop :=
  ∀ (x y : Reg) (s : State),
    (decodeWord (wordXYN 0x5 x.val y.val 0) = some (.seReg x y) ∧
      ∃ t, exec (.seReg x y) s = .next t ∧ t.pc = (if readV s x = readV s y then s.pc + 4 else s.pc + 2) ∧
        OnlyChanges s t (fun p => p ∈ [StatePart.pc])) ∧
    (decodeWord (wordXYN 0x9 x.val y.val 0) = some (.sneReg x y) ∧
      ∃ t, exec (.sneReg x y) s = .next t ∧ t.pc = (if readV s x ≠ readV s y then s.pc + 4 else s.pc + 2) ∧
        OnlyChanges s t (fun p => p ∈ [StatePart.pc])) ∧
    (∀ n : BitVec 4, n ≠ 0 → decodeWord (wordXYN 0x5 x.val y.val n.toNat) = none ∧
      decodeWord (wordXYN 0x9 x.val y.val n.toNat) = none)

/-- After an instruction that runs normally `pc` is `pc + 2`, for a skip `pc + 4`, or the target of a jump, call or return;
after one that raises a fatal condition `pc` is unchanged (10_state.md R25). -/
def Obligations.PcMovesInThreeWays : Prop :=
  ∀ (i : Instr) (s : State), ∃ t, exec i s = .next t ∧
    (fatalCondition i s = none → t.pc ∈ nextPcs i s) ∧
    (fatalCondition i s ≠ none → t.pc = s.pc)

/-! ### Registers and arithmetic (41_register_arithmetic.md) -/

/-- `LD Vx, nn`, `ADD Vx, nn` and `LD Vx, Vy` (R150, R151, R152): no flag. -/
def Obligations.LoadsAndImmediateAdd : Prop :=
  ∀ (x y : Reg) (nn : Byte) (s : State),
    (decodeWord (wordXNN 0x6 x.val nn.toNat) = some (.ldImm x nn) ∧
      ∃ t, exec (.ldImm x nn) s = .next t ∧ readV t x = nn ∧ t.pc = s.pc + 2 ∧
        OnlyChanges s t (fun p => p ∈ [StatePart.pc, StatePart.v x])) ∧
    (decodeWord (wordXNN 0x7 x.val nn.toNat) = some (.addImm x nn) ∧
      ∃ t, exec (.addImm x nn) s = .next t ∧ (readV t x).toNat = ((readV s x).toNat + nn.toNat) % 256 ∧
        t.pc = s.pc + 2 ∧ OnlyChanges s t (fun p => p ∈ [StatePart.pc, StatePart.v x])) ∧
    (decodeWord (wordXYN 0x8 x.val y.val 0x0) = some (.ldReg x y) ∧
      ∃ t, exec (.ldReg x y) s = .next t ∧ readV t x = readV s y ∧ t.pc = s.pc + 2 ∧
        OnlyChanges s t (fun p => p ∈ [StatePart.pc, StatePart.v x]))

/-- `OR`, `AND`, `XOR` (R153, R154, R155): bit by bit, and no flag. -/
def Obligations.LogicOperations : Prop :=
  ∀ (x y : Reg) (s : State),
    (decodeWord (wordXYN 0x8 x.val y.val 0x1) = some (.orReg x y) ∧
      ∃ t, exec (.orReg x y) s = .next t ∧ t.pc = s.pc + 2 ∧
        (∀ k < 8, (readV t x).getLsbD k = ((readV s x).getLsbD k || (readV s y).getLsbD k)) ∧
        OnlyChanges s t (fun p => p ∈ [StatePart.pc, StatePart.v x])) ∧
    (decodeWord (wordXYN 0x8 x.val y.val 0x2) = some (.andReg x y) ∧
      ∃ t, exec (.andReg x y) s = .next t ∧ t.pc = s.pc + 2 ∧
        (∀ k < 8, (readV t x).getLsbD k = ((readV s x).getLsbD k && (readV s y).getLsbD k)) ∧
        OnlyChanges s t (fun p => p ∈ [StatePart.pc, StatePart.v x])) ∧
    (decodeWord (wordXYN 0x8 x.val y.val 0x3) = some (.xorReg x y) ∧
      ∃ t, exec (.xorReg x y) s = .next t ∧ t.pc = s.pc + 2 ∧
        (∀ k < 8, (readV t x).getLsbD k = ((readV s x).getLsbD k != (readV s y).getLsbD k)) ∧
        OnlyChanges s t (fun p => p ∈ [StatePart.pc, StatePart.v x]))

/-- `ADD Vx, Vy` (R156): the sum modulo 256 to `V[x]`, the carry to VF, and the sum stays when `x = 15`. -/
def Obligations.AddRegistersWithCarryOut : Prop :=
  ∀ (x y : Reg) (s : State),
    decodeWord (wordXYN 0x8 x.val y.val 0x4) = some (.addReg x y) ∧
    ∃ t, exec (.addReg x y) s = .next t ∧
      (readV t x).toNat = ((readV s x).toNat + (readV s y).toNat) % 256 ∧
      (x ≠ 15 → readV t 15 = if (readV s x).toNat + (readV s y).toNat > 255 then 1 else 0) ∧
      t.pc = s.pc + 2 ∧ OnlyChanges s t (fun p => p ∈ [StatePart.pc, StatePart.v 15, StatePart.v x])

/-- `SUB Vx, Vy` and `SUBN Vx, Vy` (R157, R159): the difference modulo 256 to `V[x]`, not-borrow to VF, and the difference
stays when `x = 15`. -/
def Obligations.SubtractionsWithNotBorrow : Prop :=
  ∀ (x y : Reg) (s : State),
    (decodeWord (wordXYN 0x8 x.val y.val 0x5) = some (.sub x y) ∧
      ∃ t, exec (.sub x y) s = .next t ∧
        ((readV t x).toNat : Int) = ((readV s x).toNat - (readV s y).toNat : Int) % 256 ∧
        (x ≠ 15 → readV t 15 = if (readV s x).toNat ≥ (readV s y).toNat then 1 else 0) ∧
        t.pc = s.pc + 2 ∧ OnlyChanges s t (fun p => p ∈ [StatePart.pc, StatePart.v 15, StatePart.v x])) ∧
    (decodeWord (wordXYN 0x8 x.val y.val 0x7) = some (.subn x y) ∧
      ∃ t, exec (.subn x y) s = .next t ∧
        ((readV t x).toNat : Int) = ((readV s y).toNat - (readV s x).toNat : Int) % 256 ∧
        (x ≠ 15 → readV t 15 = if (readV s y).toNat ≥ (readV s x).toNat then 1 else 0) ∧
        t.pc = s.pc + 2 ∧ OnlyChanges s t (fun p => p ∈ [StatePart.pc, StatePart.v 15, StatePart.v x]))

/-- `SHR Vx` and `SHL Vx` (R158, R160): `V[x]` in place for every `y`, the bit shifted out to VF, and the result stays when
`x = 15`. -/
def Obligations.ShiftsByOne : Prop :=
  ∀ (x y : Reg) (s : State),
    (decodeWord (wordXYN 0x8 x.val y.val 0x6) = some (.shr x y) ∧
      ∃ t, exec (.shr x y) s = .next t ∧ (readV t x).toNat = (readV s x).toNat / 2 ∧
        (x ≠ 15 → (readV t 15).toNat = (readV s x).toNat % 2) ∧
        t.pc = s.pc + 2 ∧ OnlyChanges s t (fun p => p ∈ [StatePart.pc, StatePart.v 15, StatePart.v x])) ∧
    (decodeWord (wordXYN 0x8 x.val y.val 0xE) = some (.shl x y) ∧
      ∃ t, exec (.shl x y) s = .next t ∧ (readV t x).toNat = 2 * (readV s x).toNat % 256 ∧
        (x ≠ 15 → (readV t 15).toNat = (readV s x).toNat / 128) ∧
        t.pc = s.pc + 2 ∧ OnlyChanges s t (fun p => p ∈ [StatePart.pc, StatePart.v 15, StatePart.v x]))

/-! ### Memory index (42_memory_index.md) -/

/-- `LD I, nnn` and `LD F, Vx` (R170, R171): the glyph address uses the low nibble only. -/
def Obligations.IndexLoads : Prop :=
  ∀ (nnn : BitVec 12) (x : Reg) (s : State),
    (decodeWord (wordNNN 0xA nnn.toNat) = some (.ldI nnn) ∧
      ∃ t, exec (.ldI nnn) s = .next t ∧ t.i.toNat = nnn.toNat ∧ t.pc = s.pc + 2 ∧
        OnlyChanges s t (fun p => p ∈ [StatePart.pc, StatePart.i])) ∧
    (decodeWord (wordXNN 0xF x.val 0x29) = some (.ldFVx x) ∧
      ∃ t, exec (.ldFVx x) s = .next t ∧ t.i.toNat = 0x000 + 5 * ((readV s x).toNat % 16) ∧ t.pc = s.pc + 2 ∧
        OnlyChanges s t (fun p => p ∈ [StatePart.pc, StatePart.i]))

/-- `RND Vx, nn` (R172): the result is the byte drawn, masked by `nn`, so it has a 0 wherever `nn` has a 0; the old
`V[x]` is no input. Which byte is drawn is a free value, and the count of draws is the model's own (log entry 4). -/
def Obligations.RandomByteIsMasked : Prop :=
  ∀ (x : Reg) (nn : Byte) (s : State),
    decodeWord (wordXNN 0xC x.val nn.toNat) = some (.rnd x nn) ∧
    ∃ t, exec (.rnd x nn) s = .next t ∧
      (∀ k < 8, (readV t x).getLsbD k = ((Config.rand8 s.draws).getLsbD k && nn.getLsbD k)) ∧
      t.draws = s.draws + 1 ∧ t.pc = s.pc + 2 ∧
      OnlyChanges s t (fun p => p ∈ [StatePart.pc, StatePart.v x, StatePart.draws])

/-- `ADD I, Vx` (44_key_timer.md R196): modulo 65536, no flag, no check. -/
def Obligations.AddToTheIndex : Prop :=
  ∀ (x : Reg) (s : State),
    decodeWord (wordXNN 0xF x.val 0x1E) = some (.addIVx x) ∧
    ∃ t, exec (.addIVx x) s = .next t ∧ t.i.toNat = (s.i.toNat + (readV s x).toNat) % 65536 ∧ t.pc = s.pc + 2 ∧
      OnlyChanges s t (fun p => p ∈ [StatePart.pc, StatePart.i])

/-! ### Display (43_display.md) -/

/-- `CLS` (R180): every pixel is off. -/
def Obligations.ClearScreenTurnsAllOff : Prop :=
  ∀ s : State,
    decodeWord 0x00E0 = some .cls ∧
    ∃ t, exec .cls s = .next t ∧ (∀ px py, t.fb.pixel px py = false) ∧ t.pc = s.pc + 2 ∧
      OnlyChanges s t (fun p => p = .pc ∨ ∃ px py, p = .pixel px py)

/-- `DRW Vx, Vy, n` (R181, R182): exactly the pixels that 1 bits of the sprite land on are inverted, VF is 1 if one of them
was on and 0 if none was, and a sprite that leaves memory is out of bounds at `I` with nothing drawn. -/
def Obligations.DrawInvertsTheSprite : Prop :=
  ∀ (x y : Reg) (n : BitVec 4) (s : State),
    decodeWord (wordXYN 0xD x.val y.val n.toNat) = some (.drw x y n) ∧
    (n.toNat = 0 ∨ s.i.toNat + n.toNat - 1 ≤ 0xFFF →
      ∃ t, exec (.drw x y n) s = .next t ∧
        (∀ px py, SpriteCovers s (readV s x) (readV s y) n.toNat px py →
          t.fb.pixel px py = !s.fb.pixel px py) ∧
        (∀ px py, ¬ SpriteCovers s (readV s x) (readV s y) n.toNat px py →
          t.fb.pixel px py = s.fb.pixel px py) ∧
        ((∃ px py, SpriteCovers s (readV s x) (readV s y) n.toNat px py ∧ s.fb.pixel px py = true) →
          readV t 15 = 1) ∧
        ((¬ ∃ px py, SpriteCovers s (readV s x) (readV s y) n.toNat px py ∧ s.fb.pixel px py = true) →
          readV t 15 = 0) ∧
        t.pc = s.pc + 2 ∧
        OnlyChanges s t (fun p => p ∈ [StatePart.pc, StatePart.v 15] ∨ ∃ px py, p = .pixel px py)) ∧
    (0 < n.toNat ∧ 0xFFF < s.i.toNat + n.toNat - 1 → HaltsWith (exec (.drw x y n) s) s .outOfBounds s.i)

/-- Drawing the same sprite twice at the same coordinates gives every pixel back its value, and the second draw collides
if the sprite has a 1 bit that landed on a pixel that was off (R181, properties). -/
def Obligations.DrawTwiceRestoresTheScreen : Prop :=
  ∀ (x y : Reg) (n : BitVec 4) (s t u : State),
    exec (.drw x y n) s = .next t → readV t x = readV s x → readV t y = readV s y →
    exec (.drw x y n) t = .next u →
    (∀ px py, u.fb.pixel px py = s.fb.pixel px py) ∧
    (n.toNat = 0 ∨ s.i.toNat + n.toNat - 1 ≤ 0xFFF →
      (∃ px py, SpriteCovers s (readV s x) (readV s y) n.toNat px py ∧ s.fb.pixel px py = false) → readV u 15 = 1)

/-! ### Keys, timers, transfers (44_key_timer.md) -/

/-- `SKP Vx` and `SKNP Vx` (R190, R191): a register value above 15 is no key index. -/
def Obligations.SkipsOnAKey : Prop :=
  ∀ (x : Reg) (s : State),
    decodeWord (wordXNN 0xE x.val 0x9E) = some (.skp x) ∧ decodeWord (wordXNN 0xE x.val 0xA1) = some (.sknp x) ∧
    (∀ k : Key, (readV s x).toNat = k.val →
      (∃ t, exec (.skp x) s = .next t ∧ t.pc = (if keyDown s k = true then s.pc + 4 else s.pc + 2) ∧
        OnlyChanges s t (fun p => p ∈ [StatePart.pc])) ∧
      (∃ t, exec (.sknp x) s = .next t ∧ t.pc = (if keyDown s k = false then s.pc + 4 else s.pc + 2) ∧
        OnlyChanges s t (fun p => p ∈ [StatePart.pc]))) ∧
    (15 < (readV s x).toNat →
      HaltsWith (exec (.skp x) s) s .keyIndex (BitVec.ofNat 16 (readV s x).toNat) ∧
      HaltsWith (exec (.sknp x) s) s .keyIndex (BitVec.ofNat 16 (readV s x).toNat))

/-- `LD Vx, K` (R192): the core waits with `pc` already advanced, `STEP` does nothing, `TICK` counts on, a key that is
already down or a release does not end the wait, and the first press of a key that was up stores its index in `V[x]` and
lets the core run. -/
def Obligations.KeyWait : Prop :=
  ∀ (x : Reg) (s : State),
    decodeWord (wordXNN 0xF x.val 0x0A) = some (.ldVxK x) ∧
    ∃ t, exec (.ldVxK x) s = .next t ∧ t.status = .awaitKey ∧ t.waitReg = x ∧ t.pc = s.pc + 2 ∧
      OnlyChanges s t (fun p => p ∈ [StatePart.pc, StatePart.status, StatePart.waitReg]) ∧
      cpuStep t = .next t ∧ (tick t).1.status = .awaitKey ∧
      (tick t).1.dt.toNat = t.dt.toNat - 1 ∧ (tick t).1.st.toNat = t.st.toNat - 1 ∧
      (∀ (k : Key) (v : Bool), keyDown t k = true ∨ v = false → (keyEvent k v t).status = .awaitKey) ∧
      (∀ k : Key, keyDown t k = false →
        (keyEvent k true t).status = .running ∧ (readV (keyEvent k true t) x).toNat = k.val ∧
        keyDown (keyEvent k true t) k = true ∧ (keyEvent k true t).pc = t.pc)

/-- `KEY_EVENT(k, v)` (10_state.md R46): it sets `KEY[k]`, and in `AWAIT_KEY` a change from 0 to 1 also writes
`V[WAIT_REG]` and lets the core run; nothing else changes. -/
def Obligations.KeyEventSetsOneKey : Prop :=
  ∀ (k : Key) (v : Bool) (s : State),
    keyDown (keyEvent k v s) k = v ∧
    (s.status = .awaitKey ∧ keyDown s k = false ∧ v = true →
      (readV (keyEvent k v s) s.waitReg).toNat = k.val ∧ (keyEvent k v s).status = .running ∧
      OnlyChanges s (keyEvent k v s) (fun p => p ∈ [StatePart.key k, StatePart.v s.waitReg, StatePart.status])) ∧
    (¬ (s.status = .awaitKey ∧ keyDown s k = false ∧ v = true) →
      OnlyChanges s (keyEvent k v s) (fun p => p ∈ [StatePart.key k]))

/-- `LD Vx, DT`, `LD DT, Vx`, `LD ST, Vx` (R193, R194, R195). -/
def Obligations.TimerMoves : Prop :=
  ∀ (x : Reg) (s : State),
    (decodeWord (wordXNN 0xF x.val 0x07) = some (.ldVxDt x) ∧
      ∃ t, exec (.ldVxDt x) s = .next t ∧ readV t x = s.dt ∧ t.pc = s.pc + 2 ∧
        OnlyChanges s t (fun p => p ∈ [StatePart.pc, StatePart.v x])) ∧
    (decodeWord (wordXNN 0xF x.val 0x15) = some (.ldDtVx x) ∧
      ∃ t, exec (.ldDtVx x) s = .next t ∧ t.dt = readV s x ∧ t.pc = s.pc + 2 ∧
        OnlyChanges s t (fun p => p ∈ [StatePart.pc, StatePart.dt])) ∧
    (decodeWord (wordXNN 0xF x.val 0x18) = some (.ldStVx x) ∧
      ∃ t, exec (.ldStVx x) s = .next t ∧ t.st = readV s x ∧ t.pc = s.pc + 2 ∧
        OnlyChanges s t (fun p => p ∈ [StatePart.pc, StatePart.st]))

/-- `LD [I], Vx` (R197): `V[k]` to `I + k` for every `k` up to `x`, `I` unchanged; out of bounds nothing is written. -/
def Obligations.StoreRegisters : Prop :=
  ∀ (x : Reg) (s : State),
    decodeWord (wordXNN 0xF x.val 0x55) = some (.ldMemVx x) ∧
    (s.i.toNat + x.val ≤ 0xFFF →
      ∃ t, exec (.ldMemVx x) s = .next t ∧
        (∀ k : Reg, k ≤ x → t.mem.read (s.i.toNat + k.val) = readV s k) ∧ t.pc = s.pc + 2 ∧
        OnlyChanges s t (fun p => p = .pc ∨ ∃ k : Reg, k ≤ x ∧ p = .mem (s.i.toNat + k.val))) ∧
    (0xFFF < s.i.toNat + x.val → HaltsWith (exec (.ldMemVx x) s) s .outOfBounds s.i)

/-- `LD Vx, [I]` (R198): the byte at `I + k` to `V[k]` for every `k` up to `x`, `I` unchanged; out of bounds no register is
written. -/
def Obligations.LoadRegisters : Prop :=
  ∀ (x : Reg) (s : State),
    decodeWord (wordXNN 0xF x.val 0x65) = some (.ldVxMem x) ∧
    (s.i.toNat + x.val ≤ 0xFFF →
      ∃ t, exec (.ldVxMem x) s = .next t ∧
        (∀ k : Reg, k ≤ x → readV t k = s.mem.read (s.i.toNat + k.val)) ∧ t.pc = s.pc + 2 ∧
        OnlyChanges s t (fun p => p = .pc ∨ ∃ k : Reg, k ≤ x ∧ p = .v k)) ∧
    (0xFFF < s.i.toNat + x.val → HaltsWith (exec (.ldVxMem x) s) s .outOfBounds s.i)

/-- `LD B, Vx` (R199): hundreds, tens and ones at `I`, `I + 1`, `I + 2`, `I` unchanged; out of bounds nothing is written. -/
def Obligations.StoreDecimalDigits : Prop :=
  ∀ (x : Reg) (s : State),
    decodeWord (wordXNN 0xF x.val 0x33) = some (.ldBVx x) ∧
    (s.i.toNat + 2 ≤ 0xFFF →
      ∃ t, exec (.ldBVx x) s = .next t ∧
        (t.mem.read s.i.toNat).toNat = (readV s x).toNat / 100 ∧
        (t.mem.read (s.i.toNat + 1)).toNat = (readV s x).toNat / 10 % 10 ∧
        (t.mem.read (s.i.toNat + 2)).toNat = (readV s x).toNat % 10 ∧ t.pc = s.pc + 2 ∧
        OnlyChanges s t (fun p => p ∈ [StatePart.pc, StatePart.mem s.i.toNat, StatePart.mem (s.i.toNat + 1),
          StatePart.mem (s.i.toNat + 2)])) ∧
    (0xFFF < s.i.toNat + 2 → HaltsWith (exec (.ldBVx x) s) s .outOfBounds s.i)

/-- Registers stored by `LD [I], Vx` come back by `LD Vx, [I]` with the same `I` and memory, whatever happened to the
registers between (R197, R198, R201). -/
def Obligations.StoreThenLoadGivesRegistersBack : Prop :=
  ∀ (x : Reg) (s : State), s.i.toNat + x.val ≤ 0xFFF →
    ∃ t, exec (.ldMemVx x) s = .next t ∧
      ∀ later : State, later.i = t.i → (∀ a, later.mem.read a = t.mem.read a) →
        ∃ u, exec (.ldVxMem x) later = .next u ∧ ∀ k : Reg, k ≤ x → readV u k = readV s k

/-- A byte stored by the last instruction, `LD [I], Vx` or `LD B, Vx`, is what the next fetch reads there (20_memory.md
R82). -/
def Obligations.StoredBytesAreFetchedNext : Prop :=
  ∀ (x : Reg) (s : State), s.pc.toNat + 2 ≤ 0xFFE →
    (s.i.toNat + x.val ≤ 0xFFF →
      ∃ t w, exec (.ldMemVx x) s = .next t ∧ t.pc.toNat = s.pc.toNat + 2 ∧ fetch t = .ok w ∧
        (∀ k : Reg, k ≤ x → s.i.toNat + k.val = t.pc.toNat → w.toNat / 256 = (readV s k).toNat) ∧
        (∀ k : Reg, k ≤ x → s.i.toNat + k.val = t.pc.toNat + 1 → w.toNat % 256 = (readV s k).toNat)) ∧
    (s.i.toNat + 2 ≤ 0xFFF →
      ∃ t w, exec (.ldBVx x) s = .next t ∧ t.pc.toNat = s.pc.toNat + 2 ∧ fetch t = .ok w ∧
        ∀ k d : Nat,
          [(readV s x).toNat / 100, (readV s x).toNat / 10 % 10, (readV s x).toNat % 10][k]? = some d →
            (s.i.toNat + k = t.pc.toNat → w.toNat / 256 = d) ∧
            (s.i.toNat + k = t.pc.toNat + 1 → w.toNat % 256 = d))

/-! ### Timers, halting, waiting (60_exceptions.md) -/

/-- `TICK` (R223, R225): each timer counts down to 0 and stops there, the tone comes exactly when `ST` is 1, and nothing
else changes, in every `STATE`. -/
def Obligations.TickCountsDown : Prop :=
  ∀ s : State,
    act .tick s = .next (tick s).1 ∧ (tick s).1.dt.toNat = s.dt.toNat - 1 ∧ (tick s).1.st.toNat = s.st.toNat - 1 ∧
    ((tick s).2 = true ↔ s.st.toNat = 1) ∧ OnlyChanges s (tick s).1 (fun p => p ∈ [StatePart.dt, StatePart.st])

/-- After `ST` is `k >= 1` and nothing else touches it, exactly the `k`-th following tick emits the tone; the delay timer
reaches 0 after as many ticks as it held (R223, R224). -/
def Obligations.ToneComesAtTheLastTick : Prop :=
  ∀ (s : State) (n : Nat),
    ((tick (ticks n s)).2 = true ↔ n + 1 = s.st.toNat) ∧
    (ticks n s).dt.toNat = s.dt.toNat - n ∧ (ticks n s).st.toNat = s.st.toNat - n

/-- A halted machine (60_exceptions.md R217): `STEP` changes nothing and reports the same, and `TICK` and `KEY_EVENT` still do
their own work. No action but `RESET` changes `STATE`, `ERR_KIND` or `ERR_INFO` (R218, 10_state.md R33); `RESET` makes the
machine run, and nothing of the state before it survives (R218, 70_reset_and_hazards.md R250). -/
def Obligations.HaltedStaysHalted : Prop :=
  ∀ s : State, s.status = .halted →
    cpuStep s = .next s ∧ report s = (2, s.errKind.code) ∧
    (∀ (a : AgentAction) (t : State), a ≠ .reset → act a s = .next t →
      t.status = .halted ∧ t.errKind = s.errKind ∧ t.errInfo = s.errInfo) ∧
    (tick s).1.dt.toNat = s.dt.toNat - 1 ∧ (tick s).1.st.toNat = s.st.toNat - 1 ∧
    ((tick s).2 = true ↔ s.st.toNat = 1) ∧ (∀ k v, keyDown (keyEvent k v s) k = v) ∧
    act .reset s = .next (resetMachine s) ∧ (resetMachine s).status = .running ∧
    (resetMachine s).errKind = .none ∧
    ∀ s' : State, s'.mem.font = s.mem.font →
      OnlyChanges (resetMachine s) (resetMachine s') (fun p => p ∈ [StatePart.draws, StatePart.schedule])

/-- The wait (60_exceptions.md R227): of all actions of all agents it is entered only by a `STEP` of a running core that runs
an `LD Vx, K`; in it `STEP` changes nothing; and of all actions only a `KEY_EVENT` that changes a key from 0 to 1, or
`RESET`, leaves it. -/
def Obligations.WaitEndsOnlyByAKeyPress : Prop :=
  (∀ (i : Instr) (s t : State), exec i s = .next t → s.status ≠ .awaitKey → t.status = .awaitKey →
    ∃ x, i = .ldVxK x) ∧
  (∀ (a : AgentAction) (s t : State), act a s = .next t → s.status ≠ .awaitKey → t.status = .awaitKey →
    a = .step ∧ s.status = .running ∧ s.pc.toNat ≤ 0xFFE ∧
      ∃ x, decodeWord (s.mem.wordAt s.pc.toNat) = some (.ldVxK x)) ∧
  ∀ s : State, s.status = .awaitKey →
    cpuStep s = .next s ∧
    ∀ (a : AgentAction) (t : State), act a s = .next t → t.status ≠ .awaitKey →
      a = .reset ∨ ∃ k : Key, a = .keyEvent k true ∧ keyDown s k = false ∧ (readV t s.waitReg).toNat = k.val

/-! ### The whole machine -/

/-- Every instruction changes only the pieces of state the spec lets it change: the registers of 10_state.md R23, `I` by
R24, the stack by R27, the timers by R28, no key by R29, the framebuffer by R30, memory by 20_memory.md R76, the status by
R33. -/
def Obligations.InstructionsChangeOnlyTheirOwnParts : Prop :=
  ∀ (i : Instr) (s t : State), exec i s = .next t → OnlyChanges s t (mayChange i s)

/-- A general register that the table of 10_state.md R23 does not list as read has no influence: the instruction runs the
same from a state that differs in it, the results differ at most in it, and not even there when the instruction writes it
and raises no fatal condition. -/
def Obligations.RegistersNotListedAreNotRead : Prop :=
  ∀ (i : Instr) (s : State) (r : Reg) (b : Byte), ¬ regRead r i →
    ∃ t u, exec i s = .next t ∧ exec i (writeV s r b) = .next u ∧ OnlyChanges t u (fun p => p ∈ [StatePart.v r]) ∧
      (regWritten r i → fatalCondition i s = none → readV u r = readV t r)

/-- No instruction reads `ST`, `STATE`, `ERR_KIND`, `ERR_INFO` or `WAIT_REG`: from two states that differ only in these,
every instruction gives results that differ only in these, and not in those of them that it writes (10_state.md R28, R33,
60_exceptions.md R221). -/
def Obligations.HiddenRegistersAreNotRead : Prop :=
  ∀ (i : Instr) (s s' : State), OnlyChanges s s' isHidden →
    ∃ t t', exec i s = .next t ∧ exec i s' = .next t' ∧
      OnlyChanges t t' (fun p => isHidden p ∧ ¬ hiddenWritten i s p)

/-- THE INVARIANT IS KEPT by every step, whichever agent acts: memory stays canonical, the machine is halted exactly when
an error is recorded, `pc` stays at most 0x10FE and every stack entry at most 0x1000 (10_state.md R26, R33). The canonical
form is the model's choice (log entry 7). -/
def Obligations.StepKeepsTheInvariant : Prop :=
  ∀ s t : State, MachineInv s → step s = .next t → MachineInv t

/-- The invariant holds after reset, whatever the table `FONT` (10_state.md R36; the canonical form of memory is the model's
choice, log entry 7). -/
def Obligations.ResetMeetsTheInvariant : Prop :=
  MachineInv State.reset ∧ (∀ font : FontTable, MachineInv (State.resetWith font)) ∧
    ∀ s : State, MachineInv (resetMachine s)

/-! ### Reset, loading, the end of a run -/

/-- After `RESET` every piece of state has the value of the table of 10_state.md R36, from any state and for any table `FONT`
the machine is built with; the machine `State.reset` is that of the default table. -/
def Obligations.ResetGivesTheTable : Prop :=
  State.reset = State.resetWith Config.defaultFont ∧
  ∀ (font : FontTable) (t : State),
    (t = State.resetWith font ∨ ∃ s, s.mem.font = font ∧ act .reset s = .next t) →
    (∀ r, readV t r = 0x00) ∧ t.i = 0x0000 ∧ t.pc = 0x0200 ∧ t.sp.val = 0 ∧
    (∀ k : Fin 16, t.stack[k.val] = 0x0000) ∧ t.dt = 0x00 ∧ t.st = 0x00 ∧ (∀ k, keyDown t k = false) ∧
    (∀ px py, t.fb.pixel px py = false) ∧
    (∀ a : Fin 80, t.mem.read a.val = font[a.val]) ∧ (∀ a, 0x050 ≤ a → a ≤ 0xFFF → t.mem.read a = 0x00) ∧
    t.status = .running ∧ t.errKind = .none ∧ t.errInfo = 0 ∧ t.waitReg = 0

/-- `LOAD(image)` puts the image at 0x200 on and changes nothing else; an image over 3584 bytes is refused (10_state.md
R46, 20_memory.md R83, U21). That a load is accepted in every state is the model's choice (log entry 3). -/
def Obligations.LoadWritesTheImage : Prop :=
  ∀ (image : List Byte) (s : State),
    (image.length ≤ 3584 →
      ∃ t, act (.load image) s = .next t ∧
        (∀ k b, image[k]? = some b → t.mem.read (0x200 + k) = b) ∧
        OnlyChanges s t (fun p => ∃ k < image.length, p = .mem (0x200 + k))) ∧
    (3584 < image.length → act (.load image) s = .refused (.imageTooLong image.length))

/-- The launch state (70_reset_and_hazards.md R253), from any state, and its first instruction is the first word of the
image (R251). -/
def Obligations.LaunchStartsAtTheImage : Prop :=
  ∀ (hi lo : Byte) (image : List Byte) (s : State), image.length + 2 ≤ 3584 →
    ∃ t, launch (hi :: lo :: image) s = .next t ∧ noFault t ∧ t.status = .running ∧ t.sp.val = 0 ∧ t.dt = 0 ∧
      t.st = 0 ∧ (∀ px py, t.fb.pixel px py = false) ∧ (∀ k, keyDown t k = false) ∧ (∀ r, readV t r = 0) ∧
      t.i = 0 ∧ t.pc = 0x200 ∧ fetch t = .ok (wordOfBytes hi lo) ∧
      ∀ k b, image[k]? = some b → t.mem.read (0x202 + k) = b

/-- At the conventional end of a program every `STEP` leaves every piece of state unchanged (70_reset_and_hazards.md
R258). -/
def Obligations.SelfJumpChangesNothing : Prop :=
  ∀ s : State, Ended s → cpuStep s = .next s

/-- No step of any agent changes the table `FONT` the machine is built with, nor does any instruction: it is a constant of the
machine (20_memory.md R84; that it stands in State, as a parameter, is log entry 5). -/
def Obligations.FontTableNeverChanges : Prop :=
  (∀ (i : Instr) (s t : State), exec i s = .next t → t.mem.font = s.mem.font) ∧
  ∀ s t : State, step s = .next t → t.mem.font = s.mem.font
end

