-- ==== Sys2Proof/Laws/Memory.lean ====
section
/-!
SUPPORT. The laws of memory: what a read gives after a write, and that every memory operation keeps the canonical form
(spec 20_memory.md R70, R74, R78; log entry 7).
-/

namespace Sys2Proof.Machine

theorem readCells_cons (u : Byte) (c : Host.Cell) (m : List Host.Cell) (a : Nat) :
    readCells u (c :: m) a = if c.1 = a then c.2 else readCells u m a := rfl

theorem readCells_erase_same (u : Byte) (m : List Host.Cell) (a : Nat) :
    readCells u (m.filter (fun c => c.1 != a)) a = u := by
  induction m with
  | nil => rfl
  | cons c m ih =>
    by_cases h : c.1 = a
    · simp [h, ih]
    · simp [h, readCells_cons, ih]

theorem readCells_erase_other (u : Byte) (m : List Host.Cell) {a c : Nat} (h : c ≠ a) :
    readCells u (m.filter (fun d => d.1 != a)) c = readCells u m c := by
  induction m with
  | nil => rfl
  | cons d m ih =>
    by_cases hd : d.1 = a
    · simp [hd, readCells_cons, ih, h.symm]
    · simp [hd, readCells_cons, ih]

theorem readCells_place_same (u : Byte) (m : List Host.Cell) (a : Nat) (b : Byte) (h : ∀ c ∈ m, c.1 ≠ a) :
    readCells u (placeCell m a b) a = b := by
  induction m with
  | nil => simp [placeCell, readCells_cons]
  | cons c m ih =>
    have hc : c.1 ≠ a := h c (by simp)
    unfold placeCell
    split
    · simp [readCells_cons]
    · rw [readCells_cons, if_neg hc]
      exact ih (fun d hd => h d (by simp [hd]))

theorem readCells_place_other (u : Byte) (m : List Host.Cell) {a c : Nat} (b : Byte) (h : c ≠ a) :
    readCells u (placeCell m a b) c = readCells u m c := by
  induction m with
  | nil => simp [placeCell, readCells_cons, h.symm]
  | cons d m ih =>
    unfold placeCell
    split
    · simp [readCells_cons, h.symm]
    · simp [readCells_cons, ih]

/-- With nothing written, every address reads as its reset byte. -/
@[simp] theorem Memory.read_nil (font : FontTable) (a : Nat) :
    Memory.read ⟨font, []⟩ a = Config.resetByte font a := rfl

@[simp] theorem Memory.write_font (m : Memory) (a : Nat) (b : Byte) : (m.write a b).font = m.font := rfl

@[simp] theorem Memory.writeBytes_font (bs : List Byte) (m : Memory) (addr : Nat) :
    (m.writeBytes addr bs).font = m.font := by
  induction bs generalizing m addr with
  | nil => rfl
  | cons b bs ih => rw [Memory.writeBytes, ih, Memory.write_font]

/-- A read after a write: the byte written there, and any other address as before. -/
theorem Memory.read_write (m : Memory) (a c : Nat) (b : Byte) :
    (m.write a b).read c = if c = a then b else m.read c := by
  unfold Memory.write Memory.read
  by_cases h : c = a
  · subst h
    by_cases hb : b = Config.resetByte m.font c
    · simp [hb, readCells_erase_same]
    · simp only [hb, if_false, if_true]
      exact readCells_place_same _ _ _ _ (by simp)
  · by_cases hb : b = Config.resetByte m.font a
    · simp [hb, h, readCells_erase_other _ _ h]
    · simp [hb, h, readCells_place_other _ _ b h, readCells_erase_other _ _ h]

/-- A read after a write of bytes: the byte of the block at that address, and outside the block as before. -/
theorem Memory.read_writeBytes (bs : List Byte) (m : Memory) (addr c : Nat) :
    (m.writeBytes addr bs).read c =
      if h : addr ≤ c ∧ c < addr + bs.length then bs[c - addr]'(by omega) else m.read c := by
  induction bs generalizing m addr with
  | nil => simp [Memory.writeBytes]
  | cons b bs ih =>
    rw [Memory.writeBytes, ih, Memory.read_write]
    by_cases h : c = addr
    · subst h; simp
    · by_cases h1 : addr + 1 ≤ c ∧ c < addr + 1 + bs.length
      · have h2 : addr ≤ c ∧ c < addr + (b :: bs).length := by simp; omega
        have h3 : c - addr = (c - (addr + 1)) + 1 := by omega
        simp only [h1, h2, and_self, dite_true, h3, List.getElem_cons_succ]
      · have h2 : ¬ (addr ≤ c ∧ c < addr + (b :: bs).length) := by simp; omega
        simp only [h1, h2, dite_false, if_neg h]

@[simp] theorem Memory.length_readBytes (m : Memory) (addr len : Nat) : (m.readBytes addr len).length = len := by
  simp [Memory.readBytes]

@[simp] theorem Memory.getElem_readBytes (m : Memory) (addr len k : Nat) (h : k < (m.readBytes addr len).length) :
    (m.readBytes addr len)[k] = m.read (addr + k) := by
  simp [Memory.readBytes]

theorem mem_placeCell {m : List Host.Cell} {a : Nat} {b : Byte} {c : Host.Cell} :
    c ∈ placeCell m a b ↔ c = (a, b) ∨ c ∈ m := by
  induction m with
  | nil => simp [placeCell]
  | cons d m ih =>
    unfold placeCell
    split
    · simp
    · simp only [List.mem_cons, ih]; tauto

theorem placeCell_pairwise {m : List Host.Cell} {a : Nat} {b : Byte} (hm : m.Pairwise (fun c d => c.1 < d.1))
    (ha : ∀ c ∈ m, c.1 ≠ a) : (placeCell m a b).Pairwise (fun c d => c.1 < d.1) := by
  induction m with
  | nil => simp [placeCell]
  | cons d m ih =>
    rw [List.pairwise_cons] at hm
    unfold placeCell
    split
    · rename_i h
      refine List.pairwise_cons.2 ⟨fun c hc => ?_, List.pairwise_cons.2 hm⟩
      rcases List.mem_cons.1 hc with rfl | hc
      · exact h
      · exact lt_trans h (hm.1 c hc)
    · rename_i h
      refine List.pairwise_cons.2 ⟨fun c hc => ?_, ih hm.2 (fun c hc => ha c (by simp [hc]))⟩
      rcases mem_placeCell.1 hc with rfl | hc
      · exact lt_of_le_of_ne (not_lt.1 h) (ha d (by simp))
      · exact hm.1 c hc

/-- A write inside memory keeps the canonical form. -/
theorem Memory.write_wf {m : Memory} {a : Nat} (b : Byte) (hm : m.wf) (ha : a ≤ 0xFFF) : (m.write a b).wf := by
  have hp := hm.1.filter (fun c => c.1 != a)
  unfold Memory.write Memory.wf
  by_cases hb : b = Config.resetByte m.font a
  · simp only [hb, if_true]
    exact ⟨hp, fun c hc => hm.2 c (List.mem_of_mem_filter hc)⟩
  · simp only [hb, if_false]
    refine ⟨placeCell_pairwise hp (by simp), fun c hc => ?_⟩
    rcases mem_placeCell.1 hc with rfl | hc
    · exact ⟨ha, hb⟩
    · exact hm.2 c (List.mem_of_mem_filter hc)

/-- A write of a block inside memory keeps the canonical form. -/
theorem Memory.writeBytes_wf (bs : List Byte) {m : Memory} {addr : Nat} (hm : m.wf)
    (h : bs = [] ∨ addr + bs.length ≤ 0x1000) : (m.writeBytes addr bs).wf := by
  induction bs generalizing m addr with
  | nil => exact hm
  | cons b bs ih =>
    simp only [List.length_cons, reduceCtorEq, false_or] at h
    exact ih (Memory.write_wf b hm (by omega)) (Or.inr (by omega))

theorem Memory.nil_wf (font : FontTable) : Memory.wf ⟨font, []⟩ := by simp [Memory.wf]

/-- Reset memory is in canonical form, whatever the table. -/
theorem State.resetWith_mem_wf (font : FontTable) : (State.resetWith font).mem.wf := Memory.nil_wf font

theorem State.reset_mem_wf : State.reset.mem.wf := State.resetWith_mem_wf _

end Sys2Proof.Machine
end

