-- ==== Sys2Proof/Laws/State.lean ====
section
/-!
SUPPORT. One lemma for each field of the state under each named update of Machine/: what the update writes, and that
it leaves every other field alone. All by unfolding the update once; later proofs cite these and unfold no update.
-/

namespace Sys2Proof.Machine

@[simp] theorem writeV_v (s : State) (x : Reg) (b : Byte) : (writeV s x b).v = s.v.set x.val b := rfl
@[simp] theorem writeV_i (s : State) (x : Reg) (b : Byte) : (writeV s x b).i = s.i := rfl
@[simp] theorem writeV_pc (s : State) (x : Reg) (b : Byte) : (writeV s x b).pc = s.pc := rfl
@[simp] theorem writeV_sp (s : State) (x : Reg) (b : Byte) : (writeV s x b).sp = s.sp := rfl
@[simp] theorem writeV_stack (s : State) (x : Reg) (b : Byte) : (writeV s x b).stack = s.stack := rfl
@[simp] theorem writeV_dt (s : State) (x : Reg) (b : Byte) : (writeV s x b).dt = s.dt := rfl
@[simp] theorem writeV_st (s : State) (x : Reg) (b : Byte) : (writeV s x b).st = s.st := rfl
@[simp] theorem writeV_key (s : State) (x : Reg) (b : Byte) : (writeV s x b).key = s.key := rfl
@[simp] theorem writeV_fb (s : State) (x : Reg) (b : Byte) : (writeV s x b).fb = s.fb := rfl
@[simp] theorem writeV_mem (s : State) (x : Reg) (b : Byte) : (writeV s x b).mem = s.mem := rfl
@[simp] theorem writeV_status (s : State) (x : Reg) (b : Byte) : (writeV s x b).status = s.status := rfl
@[simp] theorem writeV_errKind (s : State) (x : Reg) (b : Byte) : (writeV s x b).errKind = s.errKind := rfl
@[simp] theorem writeV_errInfo (s : State) (x : Reg) (b : Byte) : (writeV s x b).errInfo = s.errInfo := rfl
@[simp] theorem writeV_waitReg (s : State) (x : Reg) (b : Byte) : (writeV s x b).waitReg = s.waitReg := rfl
@[simp] theorem writeV_draws (s : State) (x : Reg) (b : Byte) : (writeV s x b).draws = s.draws := rfl
@[simp] theorem writeV_schedule (s : State) (x : Reg) (b : Byte) : (writeV s x b).schedule = s.schedule := rfl

@[simp] theorem writeFlag_v (s : State) (f : Bool) : (writeFlag s f).v = s.v.set vf.val (flagByte f) := rfl
@[simp] theorem writeFlag_i (s : State) (f : Bool) : (writeFlag s f).i = s.i := rfl
@[simp] theorem writeFlag_pc (s : State) (f : Bool) : (writeFlag s f).pc = s.pc := rfl
@[simp] theorem writeFlag_sp (s : State) (f : Bool) : (writeFlag s f).sp = s.sp := rfl
@[simp] theorem writeFlag_stack (s : State) (f : Bool) : (writeFlag s f).stack = s.stack := rfl
@[simp] theorem writeFlag_dt (s : State) (f : Bool) : (writeFlag s f).dt = s.dt := rfl
@[simp] theorem writeFlag_st (s : State) (f : Bool) : (writeFlag s f).st = s.st := rfl
@[simp] theorem writeFlag_key (s : State) (f : Bool) : (writeFlag s f).key = s.key := rfl
@[simp] theorem writeFlag_fb (s : State) (f : Bool) : (writeFlag s f).fb = s.fb := rfl
@[simp] theorem writeFlag_mem (s : State) (f : Bool) : (writeFlag s f).mem = s.mem := rfl
@[simp] theorem writeFlag_status (s : State) (f : Bool) : (writeFlag s f).status = s.status := rfl
@[simp] theorem writeFlag_errKind (s : State) (f : Bool) : (writeFlag s f).errKind = s.errKind := rfl
@[simp] theorem writeFlag_errInfo (s : State) (f : Bool) : (writeFlag s f).errInfo = s.errInfo := rfl
@[simp] theorem writeFlag_waitReg (s : State) (f : Bool) : (writeFlag s f).waitReg = s.waitReg := rfl
@[simp] theorem writeFlag_draws (s : State) (f : Bool) : (writeFlag s f).draws = s.draws := rfl
@[simp] theorem writeFlag_schedule (s : State) (f : Bool) : (writeFlag s f).schedule = s.schedule := rfl

@[simp] theorem writeI_v (s : State) (a : Word) : (writeI s a).v = s.v := rfl
@[simp] theorem writeI_i (s : State) (a : Word) : (writeI s a).i = a := rfl
@[simp] theorem writeI_pc (s : State) (a : Word) : (writeI s a).pc = s.pc := rfl
@[simp] theorem writeI_sp (s : State) (a : Word) : (writeI s a).sp = s.sp := rfl
@[simp] theorem writeI_stack (s : State) (a : Word) : (writeI s a).stack = s.stack := rfl
@[simp] theorem writeI_dt (s : State) (a : Word) : (writeI s a).dt = s.dt := rfl
@[simp] theorem writeI_st (s : State) (a : Word) : (writeI s a).st = s.st := rfl
@[simp] theorem writeI_key (s : State) (a : Word) : (writeI s a).key = s.key := rfl
@[simp] theorem writeI_fb (s : State) (a : Word) : (writeI s a).fb = s.fb := rfl
@[simp] theorem writeI_mem (s : State) (a : Word) : (writeI s a).mem = s.mem := rfl
@[simp] theorem writeI_status (s : State) (a : Word) : (writeI s a).status = s.status := rfl
@[simp] theorem writeI_errKind (s : State) (a : Word) : (writeI s a).errKind = s.errKind := rfl
@[simp] theorem writeI_errInfo (s : State) (a : Word) : (writeI s a).errInfo = s.errInfo := rfl
@[simp] theorem writeI_waitReg (s : State) (a : Word) : (writeI s a).waitReg = s.waitReg := rfl
@[simp] theorem writeI_draws (s : State) (a : Word) : (writeI s a).draws = s.draws := rfl
@[simp] theorem writeI_schedule (s : State) (a : Word) : (writeI s a).schedule = s.schedule := rfl

@[simp] theorem advance_v (s : State) : (advance s).v = s.v := rfl
@[simp] theorem advance_i (s : State) : (advance s).i = s.i := rfl
@[simp] theorem advance_pc (s : State) : (advance s).pc = s.pc + 2 := rfl
@[simp] theorem advance_sp (s : State) : (advance s).sp = s.sp := rfl
@[simp] theorem advance_stack (s : State) : (advance s).stack = s.stack := rfl
@[simp] theorem advance_dt (s : State) : (advance s).dt = s.dt := rfl
@[simp] theorem advance_st (s : State) : (advance s).st = s.st := rfl
@[simp] theorem advance_key (s : State) : (advance s).key = s.key := rfl
@[simp] theorem advance_fb (s : State) : (advance s).fb = s.fb := rfl
@[simp] theorem advance_mem (s : State) : (advance s).mem = s.mem := rfl
@[simp] theorem advance_status (s : State) : (advance s).status = s.status := rfl
@[simp] theorem advance_errKind (s : State) : (advance s).errKind = s.errKind := rfl
@[simp] theorem advance_errInfo (s : State) : (advance s).errInfo = s.errInfo := rfl
@[simp] theorem advance_waitReg (s : State) : (advance s).waitReg = s.waitReg := rfl
@[simp] theorem advance_draws (s : State) : (advance s).draws = s.draws := rfl
@[simp] theorem advance_schedule (s : State) : (advance s).schedule = s.schedule := rfl

@[simp] theorem load_v (s : State) (t : Word) : (nextPc s (.load t)).v = s.v := rfl
@[simp] theorem load_i (s : State) (t : Word) : (nextPc s (.load t)).i = s.i := rfl
@[simp] theorem load_pc (s : State) (t : Word) : (nextPc s (.load t)).pc = t := rfl
@[simp] theorem load_sp (s : State) (t : Word) : (nextPc s (.load t)).sp = s.sp := rfl
@[simp] theorem load_stack (s : State) (t : Word) : (nextPc s (.load t)).stack = s.stack := rfl
@[simp] theorem load_dt (s : State) (t : Word) : (nextPc s (.load t)).dt = s.dt := rfl
@[simp] theorem load_st (s : State) (t : Word) : (nextPc s (.load t)).st = s.st := rfl
@[simp] theorem load_key (s : State) (t : Word) : (nextPc s (.load t)).key = s.key := rfl
@[simp] theorem load_fb (s : State) (t : Word) : (nextPc s (.load t)).fb = s.fb := rfl
@[simp] theorem load_mem (s : State) (t : Word) : (nextPc s (.load t)).mem = s.mem := rfl
@[simp] theorem load_status (s : State) (t : Word) : (nextPc s (.load t)).status = s.status := rfl
@[simp] theorem load_errKind (s : State) (t : Word) : (nextPc s (.load t)).errKind = s.errKind := rfl
@[simp] theorem load_errInfo (s : State) (t : Word) : (nextPc s (.load t)).errInfo = s.errInfo := rfl
@[simp] theorem load_waitReg (s : State) (t : Word) : (nextPc s (.load t)).waitReg = s.waitReg := rfl
@[simp] theorem load_draws (s : State) (t : Word) : (nextPc s (.load t)).draws = s.draws := rfl
@[simp] theorem load_schedule (s : State) (t : Word) : (nextPc s (.load t)).schedule = s.schedule := rfl

@[simp] theorem skipIf_v (c : Bool) (s : State) : (skipIf c s).v = s.v := by cases c <;> rfl
@[simp] theorem skipIf_i (c : Bool) (s : State) : (skipIf c s).i = s.i := by cases c <;> rfl
@[simp] theorem skipIf_pc (c : Bool) (s : State) : (skipIf c s).pc = if c then s.pc + 4 else s.pc + 2 := by cases c <;> rfl
@[simp] theorem skipIf_sp (c : Bool) (s : State) : (skipIf c s).sp = s.sp := by cases c <;> rfl
@[simp] theorem skipIf_stack (c : Bool) (s : State) : (skipIf c s).stack = s.stack := by cases c <;> rfl
@[simp] theorem skipIf_dt (c : Bool) (s : State) : (skipIf c s).dt = s.dt := by cases c <;> rfl
@[simp] theorem skipIf_st (c : Bool) (s : State) : (skipIf c s).st = s.st := by cases c <;> rfl
@[simp] theorem skipIf_key (c : Bool) (s : State) : (skipIf c s).key = s.key := by cases c <;> rfl
@[simp] theorem skipIf_fb (c : Bool) (s : State) : (skipIf c s).fb = s.fb := by cases c <;> rfl
@[simp] theorem skipIf_mem (c : Bool) (s : State) : (skipIf c s).mem = s.mem := by cases c <;> rfl
@[simp] theorem skipIf_status (c : Bool) (s : State) : (skipIf c s).status = s.status := by cases c <;> rfl
@[simp] theorem skipIf_errKind (c : Bool) (s : State) : (skipIf c s).errKind = s.errKind := by cases c <;> rfl
@[simp] theorem skipIf_errInfo (c : Bool) (s : State) : (skipIf c s).errInfo = s.errInfo := by cases c <;> rfl
@[simp] theorem skipIf_waitReg (c : Bool) (s : State) : (skipIf c s).waitReg = s.waitReg := by cases c <;> rfl
@[simp] theorem skipIf_draws (c : Bool) (s : State) : (skipIf c s).draws = s.draws := by cases c <;> rfl
@[simp] theorem skipIf_schedule (c : Bool) (s : State) : (skipIf c s).schedule = s.schedule := by cases c <;> rfl

@[simp] theorem raise_v (f : Fault) (s : State) : (raise f s).v = s.v := rfl
@[simp] theorem raise_i (f : Fault) (s : State) : (raise f s).i = s.i := rfl
@[simp] theorem raise_pc (f : Fault) (s : State) : (raise f s).pc = s.pc := rfl
@[simp] theorem raise_sp (f : Fault) (s : State) : (raise f s).sp = s.sp := rfl
@[simp] theorem raise_stack (f : Fault) (s : State) : (raise f s).stack = s.stack := rfl
@[simp] theorem raise_dt (f : Fault) (s : State) : (raise f s).dt = s.dt := rfl
@[simp] theorem raise_st (f : Fault) (s : State) : (raise f s).st = s.st := rfl
@[simp] theorem raise_key (f : Fault) (s : State) : (raise f s).key = s.key := rfl
@[simp] theorem raise_fb (f : Fault) (s : State) : (raise f s).fb = s.fb := rfl
@[simp] theorem raise_mem (f : Fault) (s : State) : (raise f s).mem = s.mem := rfl
@[simp] theorem raise_status (f : Fault) (s : State) : (raise f s).status = .halted := rfl
@[simp] theorem raise_errKind (f : Fault) (s : State) : (raise f s).errKind = f.kind := rfl
@[simp] theorem raise_errInfo (f : Fault) (s : State) : (raise f s).errInfo = f.info := rfl
@[simp] theorem raise_waitReg (f : Fault) (s : State) : (raise f s).waitReg = s.waitReg := rfl
@[simp] theorem raise_draws (f : Fault) (s : State) : (raise f s).draws = s.draws := rfl
@[simp] theorem raise_schedule (f : Fault) (s : State) : (raise f s).schedule = s.schedule := rfl

@[simp] theorem awaitKey_v (x : Reg) (s : State) : (awaitKey x s).v = s.v := rfl
@[simp] theorem awaitKey_i (x : Reg) (s : State) : (awaitKey x s).i = s.i := rfl
@[simp] theorem awaitKey_pc (x : Reg) (s : State) : (awaitKey x s).pc = s.pc := rfl
@[simp] theorem awaitKey_sp (x : Reg) (s : State) : (awaitKey x s).sp = s.sp := rfl
@[simp] theorem awaitKey_stack (x : Reg) (s : State) : (awaitKey x s).stack = s.stack := rfl
@[simp] theorem awaitKey_dt (x : Reg) (s : State) : (awaitKey x s).dt = s.dt := rfl
@[simp] theorem awaitKey_st (x : Reg) (s : State) : (awaitKey x s).st = s.st := rfl
@[simp] theorem awaitKey_key (x : Reg) (s : State) : (awaitKey x s).key = s.key := rfl
@[simp] theorem awaitKey_fb (x : Reg) (s : State) : (awaitKey x s).fb = s.fb := rfl
@[simp] theorem awaitKey_mem (x : Reg) (s : State) : (awaitKey x s).mem = s.mem := rfl
@[simp] theorem awaitKey_status (x : Reg) (s : State) : (awaitKey x s).status = .awaitKey := rfl
@[simp] theorem awaitKey_errKind (x : Reg) (s : State) : (awaitKey x s).errKind = s.errKind := rfl
@[simp] theorem awaitKey_errInfo (x : Reg) (s : State) : (awaitKey x s).errInfo = s.errInfo := rfl
@[simp] theorem awaitKey_waitReg (x : Reg) (s : State) : (awaitKey x s).waitReg = x := rfl
@[simp] theorem awaitKey_draws (x : Reg) (s : State) : (awaitKey x s).draws = s.draws := rfl
@[simp] theorem awaitKey_schedule (x : Reg) (s : State) : (awaitKey x s).schedule = s.schedule := rfl

@[simp] theorem loadDt_v (b : Byte) (s : State) : (loadDt b s).v = s.v := rfl
@[simp] theorem loadDt_i (b : Byte) (s : State) : (loadDt b s).i = s.i := rfl
@[simp] theorem loadDt_pc (b : Byte) (s : State) : (loadDt b s).pc = s.pc := rfl
@[simp] theorem loadDt_sp (b : Byte) (s : State) : (loadDt b s).sp = s.sp := rfl
@[simp] theorem loadDt_stack (b : Byte) (s : State) : (loadDt b s).stack = s.stack := rfl
@[simp] theorem loadDt_dt (b : Byte) (s : State) : (loadDt b s).dt = b := rfl
@[simp] theorem loadDt_st (b : Byte) (s : State) : (loadDt b s).st = s.st := rfl
@[simp] theorem loadDt_key (b : Byte) (s : State) : (loadDt b s).key = s.key := rfl
@[simp] theorem loadDt_fb (b : Byte) (s : State) : (loadDt b s).fb = s.fb := rfl
@[simp] theorem loadDt_mem (b : Byte) (s : State) : (loadDt b s).mem = s.mem := rfl
@[simp] theorem loadDt_status (b : Byte) (s : State) : (loadDt b s).status = s.status := rfl
@[simp] theorem loadDt_errKind (b : Byte) (s : State) : (loadDt b s).errKind = s.errKind := rfl
@[simp] theorem loadDt_errInfo (b : Byte) (s : State) : (loadDt b s).errInfo = s.errInfo := rfl
@[simp] theorem loadDt_waitReg (b : Byte) (s : State) : (loadDt b s).waitReg = s.waitReg := rfl
@[simp] theorem loadDt_draws (b : Byte) (s : State) : (loadDt b s).draws = s.draws := rfl
@[simp] theorem loadDt_schedule (b : Byte) (s : State) : (loadDt b s).schedule = s.schedule := rfl

@[simp] theorem loadSt_v (b : Byte) (s : State) : (loadSt b s).v = s.v := rfl
@[simp] theorem loadSt_i (b : Byte) (s : State) : (loadSt b s).i = s.i := rfl
@[simp] theorem loadSt_pc (b : Byte) (s : State) : (loadSt b s).pc = s.pc := rfl
@[simp] theorem loadSt_sp (b : Byte) (s : State) : (loadSt b s).sp = s.sp := rfl
@[simp] theorem loadSt_stack (b : Byte) (s : State) : (loadSt b s).stack = s.stack := rfl
@[simp] theorem loadSt_dt (b : Byte) (s : State) : (loadSt b s).dt = s.dt := rfl
@[simp] theorem loadSt_st (b : Byte) (s : State) : (loadSt b s).st = b := rfl
@[simp] theorem loadSt_key (b : Byte) (s : State) : (loadSt b s).key = s.key := rfl
@[simp] theorem loadSt_fb (b : Byte) (s : State) : (loadSt b s).fb = s.fb := rfl
@[simp] theorem loadSt_mem (b : Byte) (s : State) : (loadSt b s).mem = s.mem := rfl
@[simp] theorem loadSt_status (b : Byte) (s : State) : (loadSt b s).status = s.status := rfl
@[simp] theorem loadSt_errKind (b : Byte) (s : State) : (loadSt b s).errKind = s.errKind := rfl
@[simp] theorem loadSt_errInfo (b : Byte) (s : State) : (loadSt b s).errInfo = s.errInfo := rfl
@[simp] theorem loadSt_waitReg (b : Byte) (s : State) : (loadSt b s).waitReg = s.waitReg := rfl
@[simp] theorem loadSt_draws (b : Byte) (s : State) : (loadSt b s).draws = s.draws := rfl
@[simp] theorem loadSt_schedule (b : Byte) (s : State) : (loadSt b s).schedule = s.schedule := rfl

@[simp] theorem tick_v (s : State) : (tick s).1.v = s.v := rfl
@[simp] theorem tick_i (s : State) : (tick s).1.i = s.i := rfl
@[simp] theorem tick_pc (s : State) : (tick s).1.pc = s.pc := rfl
@[simp] theorem tick_sp (s : State) : (tick s).1.sp = s.sp := rfl
@[simp] theorem tick_stack (s : State) : (tick s).1.stack = s.stack := rfl
@[simp] theorem tick_dt (s : State) : (tick s).1.dt = countDown s.dt := rfl
@[simp] theorem tick_st (s : State) : (tick s).1.st = countDown s.st := rfl
@[simp] theorem tick_key (s : State) : (tick s).1.key = s.key := rfl
@[simp] theorem tick_fb (s : State) : (tick s).1.fb = s.fb := rfl
@[simp] theorem tick_mem (s : State) : (tick s).1.mem = s.mem := rfl
@[simp] theorem tick_status (s : State) : (tick s).1.status = s.status := rfl
@[simp] theorem tick_errKind (s : State) : (tick s).1.errKind = s.errKind := rfl
@[simp] theorem tick_errInfo (s : State) : (tick s).1.errInfo = s.errInfo := rfl
@[simp] theorem tick_waitReg (s : State) : (tick s).1.waitReg = s.waitReg := rfl
@[simp] theorem tick_draws (s : State) : (tick s).1.draws = s.draws := rfl
@[simp] theorem tick_schedule (s : State) : (tick s).1.schedule = s.schedule := rfl

@[simp] theorem writeKey_v (s : State) (k : Key) (v : Bool) : (writeKey s k v).v = s.v := rfl
@[simp] theorem writeKey_i (s : State) (k : Key) (v : Bool) : (writeKey s k v).i = s.i := rfl
@[simp] theorem writeKey_pc (s : State) (k : Key) (v : Bool) : (writeKey s k v).pc = s.pc := rfl
@[simp] theorem writeKey_sp (s : State) (k : Key) (v : Bool) : (writeKey s k v).sp = s.sp := rfl
@[simp] theorem writeKey_stack (s : State) (k : Key) (v : Bool) : (writeKey s k v).stack = s.stack := rfl
@[simp] theorem writeKey_dt (s : State) (k : Key) (v : Bool) : (writeKey s k v).dt = s.dt := rfl
@[simp] theorem writeKey_st (s : State) (k : Key) (v : Bool) : (writeKey s k v).st = s.st := rfl
@[simp] theorem writeKey_key (s : State) (k : Key) (v : Bool) : (writeKey s k v).key = s.key.set k.val v := rfl
@[simp] theorem writeKey_fb (s : State) (k : Key) (v : Bool) : (writeKey s k v).fb = s.fb := rfl
@[simp] theorem writeKey_mem (s : State) (k : Key) (v : Bool) : (writeKey s k v).mem = s.mem := rfl
@[simp] theorem writeKey_status (s : State) (k : Key) (v : Bool) : (writeKey s k v).status = s.status := rfl
@[simp] theorem writeKey_errKind (s : State) (k : Key) (v : Bool) : (writeKey s k v).errKind = s.errKind := rfl
@[simp] theorem writeKey_errInfo (s : State) (k : Key) (v : Bool) : (writeKey s k v).errInfo = s.errInfo := rfl
@[simp] theorem writeKey_waitReg (s : State) (k : Key) (v : Bool) : (writeKey s k v).waitReg = s.waitReg := rfl
@[simp] theorem writeKey_draws (s : State) (k : Key) (v : Bool) : (writeKey s k v).draws = s.draws := rfl
@[simp] theorem writeKey_schedule (s : State) (k : Key) (v : Bool) : (writeKey s k v).schedule = s.schedule := rfl

@[simp] theorem wake_v (k : Key) (s : State) : (wake k s).v = s.v.set s.waitReg.val (BitVec.ofNat 8 k.val) := rfl
@[simp] theorem wake_i (k : Key) (s : State) : (wake k s).i = s.i := rfl
@[simp] theorem wake_pc (k : Key) (s : State) : (wake k s).pc = s.pc := rfl
@[simp] theorem wake_sp (k : Key) (s : State) : (wake k s).sp = s.sp := rfl
@[simp] theorem wake_stack (k : Key) (s : State) : (wake k s).stack = s.stack := rfl
@[simp] theorem wake_dt (k : Key) (s : State) : (wake k s).dt = s.dt := rfl
@[simp] theorem wake_st (k : Key) (s : State) : (wake k s).st = s.st := rfl
@[simp] theorem wake_key (k : Key) (s : State) : (wake k s).key = s.key := rfl
@[simp] theorem wake_fb (k : Key) (s : State) : (wake k s).fb = s.fb := rfl
@[simp] theorem wake_mem (k : Key) (s : State) : (wake k s).mem = s.mem := rfl
@[simp] theorem wake_status (k : Key) (s : State) : (wake k s).status = .running := rfl
@[simp] theorem wake_errKind (k : Key) (s : State) : (wake k s).errKind = s.errKind := rfl
@[simp] theorem wake_errInfo (k : Key) (s : State) : (wake k s).errInfo = s.errInfo := rfl
@[simp] theorem wake_waitReg (k : Key) (s : State) : (wake k s).waitReg = s.waitReg := rfl
@[simp] theorem wake_draws (k : Key) (s : State) : (wake k s).draws = s.draws := rfl
@[simp] theorem wake_schedule (k : Key) (s : State) : (wake k s).schedule = s.schedule := rfl

@[simp] theorem clearScreen_v (s : State) : (clearScreen s).v = s.v := rfl
@[simp] theorem clearScreen_i (s : State) : (clearScreen s).i = s.i := rfl
@[simp] theorem clearScreen_pc (s : State) : (clearScreen s).pc = s.pc := rfl
@[simp] theorem clearScreen_sp (s : State) : (clearScreen s).sp = s.sp := rfl
@[simp] theorem clearScreen_stack (s : State) : (clearScreen s).stack = s.stack := rfl
@[simp] theorem clearScreen_dt (s : State) : (clearScreen s).dt = s.dt := rfl
@[simp] theorem clearScreen_st (s : State) : (clearScreen s).st = s.st := rfl
@[simp] theorem clearScreen_key (s : State) : (clearScreen s).key = s.key := rfl
@[simp] theorem clearScreen_fb (s : State) : (clearScreen s).fb = Vector.replicate 64 (Vector.replicate 32 false) := rfl
@[simp] theorem clearScreen_mem (s : State) : (clearScreen s).mem = s.mem := rfl
@[simp] theorem clearScreen_status (s : State) : (clearScreen s).status = s.status := rfl
@[simp] theorem clearScreen_errKind (s : State) : (clearScreen s).errKind = s.errKind := rfl
@[simp] theorem clearScreen_errInfo (s : State) : (clearScreen s).errInfo = s.errInfo := rfl
@[simp] theorem clearScreen_waitReg (s : State) : (clearScreen s).waitReg = s.waitReg := rfl
@[simp] theorem clearScreen_draws (s : State) : (clearScreen s).draws = s.draws := rfl
@[simp] theorem clearScreen_schedule (s : State) : (clearScreen s).schedule = s.schedule := rfl

@[simp] theorem drawByte_v (s : State) : (drawByte s).2.v = s.v := rfl
@[simp] theorem drawByte_i (s : State) : (drawByte s).2.i = s.i := rfl
@[simp] theorem drawByte_pc (s : State) : (drawByte s).2.pc = s.pc := rfl
@[simp] theorem drawByte_sp (s : State) : (drawByte s).2.sp = s.sp := rfl
@[simp] theorem drawByte_stack (s : State) : (drawByte s).2.stack = s.stack := rfl
@[simp] theorem drawByte_dt (s : State) : (drawByte s).2.dt = s.dt := rfl
@[simp] theorem drawByte_st (s : State) : (drawByte s).2.st = s.st := rfl
@[simp] theorem drawByte_key (s : State) : (drawByte s).2.key = s.key := rfl
@[simp] theorem drawByte_fb (s : State) : (drawByte s).2.fb = s.fb := rfl
@[simp] theorem drawByte_mem (s : State) : (drawByte s).2.mem = s.mem := rfl
@[simp] theorem drawByte_status (s : State) : (drawByte s).2.status = s.status := rfl
@[simp] theorem drawByte_errKind (s : State) : (drawByte s).2.errKind = s.errKind := rfl
@[simp] theorem drawByte_errInfo (s : State) : (drawByte s).2.errInfo = s.errInfo := rfl
@[simp] theorem drawByte_waitReg (s : State) : (drawByte s).2.waitReg = s.waitReg := rfl
@[simp] theorem drawByte_draws (s : State) : (drawByte s).2.draws = s.draws + 1 := rfl
@[simp] theorem drawByte_schedule (s : State) : (drawByte s).2.schedule = s.schedule := rfl

@[simp] theorem resetWith_v (font : FontTable) : (State.resetWith font).v = Vector.replicate 16 0x00 := rfl
@[simp] theorem resetWith_i (font : FontTable) : (State.resetWith font).i = 0x0000 := rfl
@[simp] theorem resetWith_pc (font : FontTable) : (State.resetWith font).pc = 0x0200 := rfl
@[simp] theorem resetWith_sp (font : FontTable) : (State.resetWith font).sp = 0 := rfl
@[simp] theorem resetWith_stack (font : FontTable) : (State.resetWith font).stack = Vector.replicate 16 0x0000 := rfl
@[simp] theorem resetWith_dt (font : FontTable) : (State.resetWith font).dt = 0x00 := rfl
@[simp] theorem resetWith_st (font : FontTable) : (State.resetWith font).st = 0x00 := rfl
@[simp] theorem resetWith_key (font : FontTable) : (State.resetWith font).key = Vector.replicate 16 false := rfl
@[simp] theorem resetWith_fb (font : FontTable) : (State.resetWith font).fb = Vector.replicate 64 (Vector.replicate 32 false) := rfl
@[simp] theorem resetWith_mem (font : FontTable) : (State.resetWith font).mem = ⟨font, []⟩ := rfl
@[simp] theorem resetWith_status (font : FontTable) : (State.resetWith font).status = .running := rfl
@[simp] theorem resetWith_errKind (font : FontTable) : (State.resetWith font).errKind = .none := rfl
@[simp] theorem resetWith_errInfo (font : FontTable) : (State.resetWith font).errInfo = 0 := rfl
@[simp] theorem resetWith_waitReg (font : FontTable) : (State.resetWith font).waitReg = 0 := rfl

@[simp] theorem resetMachine_v (s : State) : (resetMachine s).v = Vector.replicate 16 0x00 := rfl
@[simp] theorem resetMachine_i (s : State) : (resetMachine s).i = 0x0000 := rfl
@[simp] theorem resetMachine_pc (s : State) : (resetMachine s).pc = 0x0200 := rfl
@[simp] theorem resetMachine_sp (s : State) : (resetMachine s).sp = 0 := rfl
@[simp] theorem resetMachine_stack (s : State) : (resetMachine s).stack = Vector.replicate 16 0x0000 := rfl
@[simp] theorem resetMachine_dt (s : State) : (resetMachine s).dt = 0x00 := rfl
@[simp] theorem resetMachine_st (s : State) : (resetMachine s).st = 0x00 := rfl
@[simp] theorem resetMachine_key (s : State) : (resetMachine s).key = Vector.replicate 16 false := rfl
@[simp] theorem resetMachine_fb (s : State) : (resetMachine s).fb = Vector.replicate 64 (Vector.replicate 32 false) := rfl
@[simp] theorem resetMachine_mem (s : State) : (resetMachine s).mem = ⟨s.mem.font, []⟩ := rfl
@[simp] theorem resetMachine_status (s : State) : (resetMachine s).status = .running := rfl
@[simp] theorem resetMachine_errKind (s : State) : (resetMachine s).errKind = .none := rfl
@[simp] theorem resetMachine_errInfo (s : State) : (resetMachine s).errInfo = 0 := rfl
@[simp] theorem resetMachine_waitReg (s : State) : (resetMachine s).waitReg = 0 := rfl
@[simp] theorem resetMachine_draws (s : State) : (resetMachine s).draws = s.draws := rfl
@[simp] theorem resetMachine_schedule (s : State) : (resetMachine s).schedule = s.schedule := rfl

/-- The machine after reset is the one built with the default table. -/
theorem reset_eq : State.reset = State.resetWith Config.defaultFont := rfl

end Sys2Proof.Machine
end

