-- ==== Sys2Proof/Laws/Ops.lean ====
section
/-!
SUPPORT. For each shared operation of Machine/ one lemma that says everything it can do, cited in place of unfolding it.
-/

namespace Sys2Proof.Machine

/-! ### Register file -/

@[simp] theorem readV_writeV (s : State) (x r : Reg) (b : Byte) :
    readV (writeV s x b) r = if r = x then b else readV s r := by
  simp only [readV, writeV_v, Vector.getElem_set]
  by_cases h : r = x
  · simp [h]
  · simp [h, Fin.val_ne_of_ne (Ne.symm h)]

/-- A register read depends on the register file only. -/
theorem readV_congr {s t : State} (h : t.v = s.v) (r : Reg) : readV t r = readV s r := by simp [readV, h]

@[simp] theorem readV_writeFlag (s : State) (f : Bool) (r : Reg) :
    readV (writeFlag s f) r = if r = vf then flagByte f else readV s r := readV_writeV s vf r (flagByte f)

@[simp] theorem readV_writeI (s : State) (a : Word) (r : Reg) : readV (writeI s a) r = readV s r := rfl
@[simp] theorem readV_advance (s : State) (r : Reg) : readV (advance s) r = readV s r := rfl
@[simp] theorem readV_load (s : State) (t : Word) (r : Reg) : readV (nextPc s (.load t)) r = readV s r := rfl
@[simp] theorem readV_skipIf (c : Bool) (s : State) (r : Reg) : readV (skipIf c s) r = readV s r :=
  readV_congr (skipIf_v c s) r
@[simp] theorem readV_raise (f : Fault) (s : State) (r : Reg) : readV (raise f s) r = readV s r := rfl
@[simp] theorem readV_awaitKey (x : Reg) (s : State) (r : Reg) : readV (awaitKey x s) r = readV s r := rfl
@[simp] theorem readV_loadDt (b : Byte) (s : State) (r : Reg) : readV (loadDt b s) r = readV s r := rfl
@[simp] theorem readV_loadSt (b : Byte) (s : State) (r : Reg) : readV (loadSt b s) r = readV s r := rfl
@[simp] theorem readV_clearScreen (s : State) (r : Reg) : readV (clearScreen s) r = readV s r := rfl
@[simp] theorem readV_writeKey (s : State) (k : Key) (v : Bool) (r : Reg) : readV (writeKey s k v) r = readV s r := rfl
@[simp] theorem readV_tick (s : State) (r : Reg) : readV (tick s).1 r = readV s r := rfl
@[simp] theorem readV_drawByte (s : State) (r : Reg) : readV (drawByte s).2 r = readV s r := rfl
@[simp] theorem readV_wake (k : Key) (s : State) (r : Reg) :
    readV (wake k s) r = if r = s.waitReg then BitVec.ofNat 8 k.val else readV s r :=
  readV_writeV s s.waitReg r (BitVec.ofNat 8 k.val)

/-- The write of an ALU result, flag first and result second (41_register_arithmetic.md R162). -/
theorem readV_aluWrite (s : State) (x r : Reg) (o : AluOut) :
    readV (aluWrite s x o) r =
      if r = x then o.res
      else if r = vf then (match o.flag with | some f => flagByte f | none => readV s r) else readV s r := by
  rcases o with ⟨res, _ | f⟩
  · simp [aluWrite]
  · simp [aluWrite]

/-- An ALU instruction writes the register file and `pc`, nothing else. -/
theorem aluInto_eq (op : AluOp) (x : Reg) (a b : Byte) (s : State) :
    aluInto op x a b s = { s with v := (aluWrite s x (alu op a b)).v, pc := s.pc + 2 } := by
  unfold aluInto aluWrite
  cases (alu op a b).flag <;> rfl

/-- The registers after an ALU instruction. -/
theorem readV_aluInto (op : AluOp) (x r : Reg) (a b : Byte) (s : State) :
    readV (aluInto op x a b s) r = readV (aluWrite s x (alu op a b)) r := by
  simp [aluInto]

/-! ### Bounds and memory access -/

/-- `CheckRange` passes exactly when the access is empty or ends inside memory (20_memory.md R73). -/
theorem checkRange_ok {addr len : Nat} (h : len = 0 ∨ addr + len ≤ 0x1000) : checkRange addr len = .ok () := by
  unfold checkRange
  rw [if_neg]
  simp only [Config.addrMax]
  omega

/-- `CheckRange` fails on every other access (20_memory.md R73). -/
theorem checkRange_error {addr len : Nat} (h0 : 0 < len) (h : 0x1000 < addr + len) :
    checkRange addr len = .error (.outOfBounds (BitVec.ofNat 16 addr)) := by
  unfold checkRange
  rw [if_pos]
  simp only [Config.addrMax]
  omega

theorem readAtI_ok {s : State} {len : Nat} (h : len = 0 ∨ s.i.toNat + len ≤ 0x1000) :
    readAtI s len = .ok (s.mem.readBytes s.i.toNat len) := by
  simp [readAtI, memRead, checkRange_ok h, Except.map]

theorem readAtI_error {s : State} {len : Nat} (h0 : 0 < len) (h : 0x1000 < s.i.toNat + len) :
    readAtI s len = .error (.outOfBounds s.i) := by
  simp [readAtI, memRead, checkRange_error h0 h, Except.map]

theorem writeAtI_ok {s : State} {bs : List Byte} (h : bs = [] ∨ s.i.toNat + bs.length ≤ 0x1000) :
    writeAtI s bs = .ok { s with mem := s.mem.writeBytes s.i.toNat bs } := by
  have : bs.length = 0 ∨ s.i.toNat + bs.length ≤ 0x1000 := by simpa [List.length_eq_zero_iff] using h
  simp [writeAtI, memWrite, checkRange_ok this, Except.map]

theorem writeAtI_error {s : State} {bs : List Byte} (h0 : bs ≠ []) (h : 0x1000 < s.i.toNat + bs.length) :
    writeAtI s bs = .error (.outOfBounds s.i) := by
  simp [writeAtI, memWrite, checkRange_error (List.length_pos_iff.2 h0) h, Except.map]

theorem fetch_ok {s : State} (h : s.pc.toNat ≤ 0xFFE) : fetch s = .ok (s.mem.wordAt s.pc.toNat) := by
  simp [fetch, checkRange_ok (addr := s.pc.toNat) (len := 2) (Or.inr (by omega)), Except.map]

theorem fetch_error {s : State} (h : 0xFFE < s.pc.toNat) : fetch s = .error (.outOfBounds s.pc) := by
  simp [fetch, checkRange_error (addr := s.pc.toNat) (len := 2) (by omega) (by omega), Except.map]

/-! ### Ends of instructions, stack, keys -/

@[simp] theorem settle_ok (s t : State) : settle s (.ok t) = .next t := rfl
@[simp] theorem settle_error (s : State) (f : Fault) : settle s (.error f) = .next (raise f s) := rfl

/-- An instruction that settles answers its result or the fatal condition it raised, always a next state. -/
theorem settle_cases (s : State) (r : Except Fault State) :
    (∃ t, r = .ok t ∧ settle s r = .next t) ∨ (∃ f, r = .error f ∧ settle s r = .next (raise f s)) := by
  cases r with
  | ok t => exact .inl ⟨t, rfl, rfl⟩
  | error f => exact .inr ⟨f, rfl, rfl⟩

theorem push_ok (v : Word) {s : State} (h : s.sp.val < 16) :
    push v s = .ok { s with stack := s.stack.set s.sp.val v h, sp := ⟨s.sp.val + 1, by omega⟩ } := by
  simp [push, Nat.ne_of_lt h]

theorem push_error (v : Word) {s : State} (h : s.sp.val = 16) : push v s = .error (.stackOverflow s.pc) := by
  simp [push, h]

theorem pop_ok {s : State} (h : 0 < s.sp.val) :
    pop s = .ok (s.stack[s.sp.val - 1]'(by omega), { s with sp := ⟨s.sp.val - 1, by omega⟩ }) := by
  simp [pop, Nat.pos_iff_ne_zero.1 h]

theorem pop_error {s : State} (h : s.sp.val = 0) : pop s = .error (.stackUnderflow s.pc) := by
  simp [pop, h]

theorem keyIndex_ok {a : Byte} {k : Key} (h : a.toNat = k.val) : keyIndex a = .ok k := by
  simp [keyIndex, h]

theorem keyIndex_error {a : Byte} (h : 15 < a.toNat) : keyIndex a = .error (.keyIndexOutOfRange a) := by
  simp [keyIndex, show ¬ a.toNat < 16 by omega]

@[simp] theorem keyDown_writeKey (s : State) (k j : Key) (v : Bool) :
    keyDown (writeKey s k v) j = if j = k then v else keyDown s j := by
  simp only [keyDown, writeKey_key, Vector.getElem_set]
  by_cases h : j = k
  · simp [h]
  · simp [h, Fin.val_ne_of_ne (Ne.symm h)]

@[simp] theorem keyDown_wake (k j : Key) (s : State) : keyDown (wake k s) j = keyDown s j := rfl

/-! ### Blocks of registers -/

@[simp] theorem length_blockOf (s : State) (x : Reg) : (blockOf s x).length = x.val + 1 := by simp [blockOf]

theorem getElem_blockOf (s : State) (x : Reg) (k : Nat) (h : k < (blockOf s x).length) :
    (blockOf s x)[k] = readV s ⟨k, by simp at h; omega⟩ := by
  have hk : k < 16 := by simp at h; omega
  simp [blockOf, Fin.ofNat, Nat.mod_eq_of_lt hk]

@[simp] theorem length_decimalDigits (a : Byte) : (decimalDigits a).length = 3 := rfl

/-- A block write changes the register file only. -/
theorem writeBlock_eq (bs : List Byte) (k : Nat) (s : State) :
    writeBlock bs k s = { s with v := (writeBlock bs k s).v } := by
  induction bs generalizing k s with
  | nil => rfl
  | cons b bs ih => rw [writeBlock, ih]; rfl

/-- The registers after a block write. -/
theorem readV_writeBlock (bs : List Byte) (k : Nat) (s : State) (r : Reg) (h : k + bs.length ≤ 16) :
    readV (writeBlock bs k s) r =
      if hr : k ≤ r.val ∧ r.val < k + bs.length then bs[r.val - k]'(by omega) else readV s r := by
  induction bs generalizing k s with
  | nil => simp [writeBlock]
  | cons b bs ih =>
    simp only [List.length_cons] at h
    rw [writeBlock, ih _ _ (by omega), readV_writeV]
    have hk : (Fin.ofNat 16 k).val = k := by simp [Fin.ofNat]; omega
    by_cases hr : r.val = k
    · rw [if_pos (Fin.ext (by omega))]
      simp [hr]
    · have hne : r ≠ Fin.ofNat 16 k := fun e => hr (by rw [e, hk])
      by_cases h1 : k + 1 ≤ r.val ∧ r.val < k + 1 + bs.length
      · have h2 : k ≤ r.val ∧ r.val < k + (b :: bs).length := by simp; omega
        have h3 : r.val - k = (r.val - (k + 1)) + 1 := by omega
        simp only [h1, h2, and_self, dite_true, h3, List.getElem_cons_succ]
      · have h2 : ¬ (k ≤ r.val ∧ r.val < k + (b :: bs).length) := by simp; omega
        simp only [h1, h2, dite_false, if_neg hne]

/-! ### Framebuffer -/

/-- Inverting one pixel leaves every other as it was. -/
theorem Framebuffer.pixel_invert (fb : Framebuffer) (px qx : Column) (py qy : Row) :
    (fb.invert px py).pixel qx qy = if qx = px ∧ qy = py then !fb.pixel qx qy else fb.pixel qx qy := by
  simp only [Framebuffer.pixel, Framebuffer.invert, Vector.getElem_set]
  by_cases hx : qx = px
  · subst hx
    by_cases hy : qy = py
    · subst hy; simp
    · simp [hy, Fin.val_ne_of_ne (Ne.symm hy)]
  · simp [hx, Fin.val_ne_of_ne (Ne.symm hx)]

@[simp] theorem pixel_clearScreen (s : State) (px : Column) (py : Row) : (clearScreen s).fb.pixel px py = false := by
  simp [Framebuffer.pixel]

/-! ### The step -/

theorem cpuStep_running {s : State} (h : s.status = .running) : cpuStep s = runInstruction s := by simp [cpuStep, h]
theorem cpuStep_halted {s : State} (h : s.status = .halted) : cpuStep s = .next s := by simp [cpuStep, h]
theorem cpuStep_awaitKey {s : State} (h : s.status = .awaitKey) : cpuStep s = .next s := by simp [cpuStep, h]

/-- Everything a running core's `STEP` can do (60_exceptions.md R219). -/
theorem runInstruction_cases (s : State) :
    (0xFFE < s.pc.toNat ∧ runInstruction s = .next (raise (.outOfBounds s.pc) s)) ∨
    (s.pc.toNat ≤ 0xFFE ∧ decodeWord (s.mem.wordAt s.pc.toNat) = none ∧
      runInstruction s = .next (raise (.unknownInstruction (s.mem.wordAt s.pc.toNat)) s)) ∨
    (∃ i, s.pc.toNat ≤ 0xFFE ∧ decodeWord (s.mem.wordAt s.pc.toNat) = some i ∧ runInstruction s = exec i s) := by
  unfold runInstruction
  by_cases h : s.pc.toNat ≤ 0xFFE
  · rw [fetch_ok h]
    rcases hd : decodeWord (s.mem.wordAt s.pc.toNat) with _ | i
    · exact .inr (.inl ⟨h, rfl, by simp [hd]⟩)
    · exact .inr (.inr ⟨i, h, rfl, by simp [hd]⟩)
  · rw [fetch_error (by omega)]
    exact .inl ⟨by omega, rfl⟩

end Sys2Proof.Machine
end

