-- ==== Sys2Proof/Laws/Draw.lean ====
section
/-!
SUPPORT. What drawing does to the framebuffer and when it collides (spec 43_display.md R181, R182), by induction over the
columns of a row and the rows of a sprite. No two sprite pixels land on the same pixel, so each covered pixel is
inverted once.
-/

namespace Sys2Proof.Machine

/-- A 1 bit among the columns `cs` of one sprite row lands on the pixel. -/
def RowCovers (xv yv : Byte) (r : Nat) (row : Byte) (cs : List Nat) (px : Column) (py : Row) : Prop :=
  ∃ c ∈ cs, px = landColumn xv c ∧ py = landRow yv r ∧ spriteBit row c = true

/-- A 1 bit of the rows, the first of them row `r`, lands on the pixel. -/
def Covers (xv yv : Byte) (r : Nat) (rows : List Byte) (px : Column) (py : Row) : Prop :=
  ∃ k, ∃ h : k < rows.length, RowCovers xv yv (r + k) rows[k] (List.range 8) px py

/-- What drawing from `acc` gives when exactly the pixels of `covered` are inverted. -/
structure Draws (acc out : Raster) (covered : Column → Row → Prop) : Prop where
  inverted : ∀ px py, covered px py → out.fb.pixel px py = !acc.fb.pixel px py
  kept : ∀ px py, ¬ covered px py → out.fb.pixel px py = acc.fb.pixel px py
  coll : out.coll = true ↔ acc.coll = true ∨ ∃ px py, covered px py ∧ acc.fb.pixel px py = true

theorem Draws.congr {acc out : Raster} {c d : Column → Row → Prop} (h : Draws acc out c) (hcd : ∀ px py, c px py ↔ d px py) :
    Draws acc out d := by
  have : c = d := funext fun px => funext fun py => propext (hcd px py)
  exact this ▸ h

/-- Two drawings one after the other on disjoint sets of pixels draw their union. -/
theorem Draws.trans {acc mid out : Raster} {c d : Column → Row → Prop} (h1 : Draws acc mid c) (h2 : Draws mid out d)
    (disjoint : ∀ px py, c px py → ¬ d px py) : Draws acc out (fun px py => c px py ∨ d px py) where
  inverted px py h := by
    rcases h with h | h
    · rw [h2.kept px py (disjoint px py h), h1.inverted px py h]
    · rw [h2.inverted px py h, h1.kept px py (fun hc => disjoint px py hc h)]
  kept px py h := by
    rw [h2.kept px py (fun hd => h (.inr hd)), h1.kept px py (fun hc => h (.inl hc))]
  coll := by
    have hd : ∀ px py, d px py → mid.fb.pixel px py = acc.fb.pixel px py :=
      fun px py h => h1.kept px py (fun hc => disjoint px py hc h)
    rw [h2.coll, h1.coll]
    constructor
    · rintro ((h | ⟨px, py, h, h'⟩) | ⟨px, py, h, h'⟩)
      · exact .inl h
      · exact .inr ⟨px, py, .inl h, h'⟩
      · exact .inr ⟨px, py, .inr h, hd px py h ▸ h'⟩
    · rintro (h | ⟨px, py, h | h, h'⟩)
      · exact .inl (.inl h)
      · exact .inl (.inr ⟨px, py, h, h'⟩)
      · exact .inr ⟨px, py, h, (hd px py h).symm ▸ h'⟩

theorem Draws.refl (acc : Raster) : Draws acc acc (fun _ _ => False) where
  inverted _ _ h := h.elim
  kept _ _ _ := rfl
  coll := by simp

theorem drawPixel_draws (xv yv : Byte) (r : Nat) (row : Byte) (acc : Raster) (c : Nat) :
    Draws acc (drawPixel xv yv r row acc c)
      (fun px py => px = landColumn xv c ∧ py = landRow yv r ∧ spriteBit row c = true) := by
  unfold drawPixel
  by_cases hb : spriteBit row c = true
  · rw [if_pos hb]
    refine ⟨fun px py h => ?_, fun px py h => ?_, ?_⟩
    · simp [Framebuffer.pixel_invert, h.1, h.2.1]
    · rw [Framebuffer.pixel_invert, if_neg (fun e => h ⟨e.1, e.2, hb⟩)]
    · simp only [Bool.or_eq_true, hb, and_true]
      constructor
      · rintro (h | h)
        · exact .inl h
        · exact .inr ⟨_, _, ⟨rfl, rfl⟩, h⟩
      · rintro (h | ⟨_, _, ⟨rfl, rfl⟩, h⟩)
        · exact .inl h
        · exact .inr h
  · rw [if_neg hb]
    exact (Draws.refl acc).congr (by simp [hb])

theorem landColumn_ne (xv : Byte) {c d : Nat} (hc : c < 8) (hd : d < 8) (h : c ≠ d) :
    landColumn xv c ≠ landColumn xv d := by
  simp only [landColumn, ne_eq, Fin.ext_iff, Fin.val_ofNat]
  omega

theorem landRow_ne (yv : Byte) {q r : Nat} (hlt : q < r) (hr : r < q + 32) : landRow yv q ≠ landRow yv r := by
  simp only [landRow, ne_eq, Fin.ext_iff, Fin.val_ofNat]
  omega

/-- Drawing some columns of one row, no column twice. -/
theorem drawColumns_draws (xv yv : Byte) (r : Nat) (row : Byte) (cs : List Nat) (h8 : ∀ c ∈ cs, c < 8) (hn : cs.Nodup)
    (acc : Raster) : Draws acc (cs.foldl (drawPixel xv yv r row) acc) (RowCovers xv yv r row cs) := by
  induction cs generalizing acc with
  | nil => exact (Draws.refl acc).congr (by simp [RowCovers])
  | cons c cs ih =>
    have hn' := List.nodup_cons.1 hn
    refine ((drawPixel_draws xv yv r row acc c).trans
      (ih (fun d hd => h8 d (by simp [hd])) hn'.2 (drawPixel xv yv r row acc c)) ?_).congr ?_
    · rintro px py ⟨hx, _⟩ ⟨d, hd, hx', _⟩
      exact landColumn_ne xv (h8 c (by simp)) (h8 d (by simp [hd])) (fun e => hn'.1 (e ▸ hd)) (hx.symm.trans hx')
    · intro px py
      simp [RowCovers]

/-- Drawing one row of eight columns. -/
theorem drawRow_draws (xv yv : Byte) (r : Nat) (row : Byte) (acc : Raster) :
    Draws acc (drawRow xv yv r row acc) (RowCovers xv yv r row (List.range 8)) :=
  drawColumns_draws xv yv r row (List.range 8) (by simp) List.nodup_range acc

/-- Drawing up to 32 rows. -/
theorem drawRows_draws (xv yv : Byte) (rows : List Byte) (r : Nat) (hl : rows.length ≤ 32) (acc : Raster) :
    Draws acc (drawRows xv yv r rows acc) (Covers xv yv r rows) := by
  induction rows generalizing r acc with
  | nil => exact (Draws.refl acc).congr (by simp [Covers])
  | cons row rows ih =>
    simp only [List.length_cons] at hl
    refine ((drawRow_draws xv yv r row acc).trans (ih (r + 1) (by omega) (drawRow xv yv r row acc)) ?_).congr ?_
    · rintro px py ⟨_, _, _, hy, _⟩ ⟨k, hk, _, _, _, hy', _⟩
      exact landRow_ne yv (by omega) (by omega) (hy.symm.trans hy')
    · intro px py
      constructor
      · rintro (h | ⟨k, hk, h⟩)
        · exact ⟨0, by simp, h⟩
        · exact ⟨k + 1, by simpa using hk, by simpa [Nat.add_assoc, Nat.add_comm 1 k] using h⟩
      · rintro ⟨k, hk, h⟩
        rcases k with _ | k
        · exact .inl h
        · exact .inr ⟨k, by simpa using hk, by simpa [Nat.add_assoc, Nat.add_comm 1 k] using h⟩

/-- Everything `draw` does: it inverts exactly the covered pixels and collides when one of them was on. -/
theorem draw_draws (xv yv : Byte) (rows : List Byte) (hl : rows.length ≤ 32) (fb : Framebuffer) :
    Draws ⟨fb, false⟩ (draw xv yv rows fb) (Covers xv yv 0 rows) :=
  drawRows_draws xv yv rows 0 hl ⟨fb, false⟩

end Sys2Proof.Machine
end

