-- ==== Sys2Proof/Laws/Encoding.lean ====
section
/-!
SUPPORT. What the decoder's slices read from each format of spec 30_encoding.md R102, and that operands typed by the width
of their field are always well-formed.
-/

namespace Sys2Proof

/-- Operands are typed by the width of their field, so every instruction is well-formed. -/
theorem Instr.wellFormed_all (i : Instr) : i.wellFormed = true := by
  cases i <;> simp [Instr.wellFormed, Instr.operands, OperandNumbers.wellFormed] <;> exact decide_eq_true (BitVec.isLt _)

theorem BitVec_slice_ext {w n : Nat} {a : BitVec w} {start : Nat} {b : BitVec n}
    (h : ∀ k < n, a.getLsbD (start + k) = b.getLsbD k) : a.extractLsb' start n = b := by
  apply BitVec.eq_of_getLsbD_eq
  intro k hk
  simp [hk, h k hk]

theorem familyOf_formatNNN (op : BitVec 4) (nnn : BitVec 12) : familyOf (formatNNN op nnn) = op.toNat := by
  unfold familyOf formatNNN
  congr 1
  apply BitVec_slice_ext
  intro k hk
  rw [BitVec.getLsbD_append, if_neg (by omega)]
  congr 1
  omega

theorem fieldsOf_formatNNN_nnn (op : BitVec 4) (nnn : BitVec 12) : (fieldsOf (formatNNN op nnn)).nnn = nnn := by
  apply BitVec_slice_ext
  intro k hk
  rw [formatNNN, BitVec.getLsbD_append, if_pos (by omega), Nat.zero_add]

theorem familyOf_formatXNN (op : BitVec 4) (x : Reg) (nn : Byte) : familyOf (formatXNN op x nn) = op.toNat := by
  unfold familyOf formatXNN
  congr 1
  apply BitVec_slice_ext
  intro k hk
  rw [BitVec.getLsbD_append, if_neg (by omega), BitVec.getLsbD_append, if_neg (by omega)]
  congr 1
  omega

theorem fieldsOf_formatXNN_x (op : BitVec 4) (x : Reg) (nn : Byte) : (fieldsOf (formatXNN op x nn)).x = x := by
  have h : (formatXNN op x nn).extractLsb' 8 4 = (BitVec.ofFin x : BitVec 4) := by
    apply BitVec_slice_ext
    intro k hk
    rw [formatXNN, BitVec.getLsbD_append, if_neg (by omega), BitVec.getLsbD_append, if_pos (by omega)]
    congr 1
    omega
  simp [fieldsOf, h]

theorem fieldsOf_formatXNN_nn (op : BitVec 4) (x : Reg) (nn : Byte) : (fieldsOf (formatXNN op x nn)).nn = nn := by
  apply BitVec_slice_ext
  intro k hk
  rw [formatXNN, BitVec.getLsbD_append, if_pos (by omega), Nat.zero_add]

theorem familyOf_formatXYN (op : BitVec 4) (x y : Reg) (n : BitVec 4) : familyOf (formatXYN op x y n) = op.toNat := by
  unfold familyOf formatXYN
  congr 1
  apply BitVec_slice_ext
  intro k hk
  rw [BitVec.getLsbD_append, if_neg (by omega), BitVec.getLsbD_append, if_neg (by omega), BitVec.getLsbD_append,
    if_neg (by omega)]
  congr 1
  omega

theorem fieldsOf_formatXYN_x (op : BitVec 4) (x y : Reg) (n : BitVec 4) : (fieldsOf (formatXYN op x y n)).x = x := by
  have h : (formatXYN op x y n).extractLsb' 8 4 = (BitVec.ofFin x : BitVec 4) := by
    apply BitVec_slice_ext
    intro k hk
    rw [formatXYN, BitVec.getLsbD_append, if_neg (by omega), BitVec.getLsbD_append, if_neg (by omega),
      BitVec.getLsbD_append, if_pos (by omega)]
    congr 1
    omega
  simp [fieldsOf, h]

theorem fieldsOf_formatXYN_y (op : BitVec 4) (x y : Reg) (n : BitVec 4) : (fieldsOf (formatXYN op x y n)).y = y := by
  have h : (formatXYN op x y n).extractLsb' 4 4 = (BitVec.ofFin y : BitVec 4) := by
    apply BitVec_slice_ext
    intro k hk
    rw [formatXYN, BitVec.getLsbD_append, if_neg (by omega), BitVec.getLsbD_append, if_pos (by omega)]
    congr 1
    omega
  simp [fieldsOf, h]

theorem fieldsOf_formatXYN_n (op : BitVec 4) (x y : Reg) (n : BitVec 4) : (fieldsOf (formatXYN op x y n)).n = n := by
  apply BitVec_slice_ext
  intro k hk
  rw [formatXYN, BitVec.getLsbD_append, if_pos (by omega), Nat.zero_add]

/-- The two bytes of a word, high byte first, are the word again. -/
theorem wordOfBytes_slices (w : Word) : wordOfBytes (w.extractLsb' 8 8) (w.extractLsb' 0 8) = w := by
  apply BitVec.eq_of_getLsbD_eq
  intro k hk
  rw [wordOfBytes, BitVec.getLsbD_append]
  by_cases h : k < 8
  · simp [h]
  · simp [h, show k - 8 < 8 by omega, show 8 + (k - 8) = k by omega]

theorem toNat_append_eq {n m : Nat} (a : BitVec n) (b : BitVec m) : (a ++ b).toNat = a.toNat * 2 ^ m + b.toNat := by
  rw [BitVec.toNat_append, ← Nat.shiftLeft_add_eq_or_of_lt b.isLt, Nat.shiftLeft_eq]

/-- A word of format `NNN` by its digits is that format. -/
theorem wordNNN_eq (op : BitVec 4) (nnn : BitVec 12) : Machine.wordNNN op.toNat nnn.toNat = formatNNN op nnn := by
  apply BitVec.eq_of_toNat_eq
  have := op.isLt
  have := nnn.isLt
  simp only [Machine.wordNNN, formatNNN, toNat_append_eq, BitVec.toNat_ofNat]
  omega

/-- A word of format `XNN` or `X` by its digits is that format. -/
theorem wordXNN_eq (op : BitVec 4) (x : Reg) (nn : Byte) :
    Machine.wordXNN op.toNat x.val nn.toNat = formatXNN op x nn := by
  apply BitVec.eq_of_toNat_eq
  have := op.isLt
  have := nn.isLt
  simp only [Machine.wordXNN, formatXNN, toNat_append_eq, BitVec.toNat_ofNat, BitVec.toNat_ofFin]
  omega

/-- A word of format `XY` or `XYN` by its digits is that format. -/
theorem wordXYN_eq (op : BitVec 4) (x y : Reg) (n : BitVec 4) :
    Machine.wordXYN op.toNat x.val y.val n.toNat = formatXYN op x y n := by
  apply BitVec.eq_of_toNat_eq
  have := op.isLt
  have := n.isLt
  simp only [Machine.wordXYN, formatXYN, toNat_append_eq, BitVec.toNat_ofNat, BitVec.toNat_ofFin]
  omega

end Sys2Proof
end

