-- ==== Sys2Proof/Laws/Exec.lean ====
section
/-!
SUPPORT. The eight instructions that can raise a fatal condition: what each answers when its check passes and when it
fails (spec 60_exceptions.md R210). The other instructions answer `.next` by definition.
-/

namespace Sys2Proof.Machine

theorem exec_call_ok (nnn : BitVec 12) {s : State} (h : s.sp.val < 16) :
    exec (.call nnn) s = .next { s with
      stack := s.stack.set s.sp.val (s.pc + 2) h, sp := ⟨s.sp.val + 1, by omega⟩, pc := addrOf nnn } := by
  simp only [exec, execCall, push_ok (s.pc + 2) h, Except.map, settle_ok]
  rfl

theorem exec_call_error (nnn : BitVec 12) {s : State} (h : s.sp.val = 16) :
    exec (.call nnn) s = .next (raise (.stackOverflow s.pc) s) := by
  simp only [exec, execCall, push_error (s.pc + 2) h, Except.map, settle_error]

theorem exec_ret_ok {s : State} (h : 0 < s.sp.val) :
    exec .ret s = .next { s with sp := ⟨s.sp.val - 1, by omega⟩, pc := s.stack[s.sp.val - 1]'(by omega) } := by
  simp only [exec, execRet, pop_ok h, Except.map, settle_ok]
  rfl

theorem exec_ret_error {s : State} (h : s.sp.val = 0) :
    exec .ret s = .next (raise (.stackUnderflow s.pc) s) := by
  simp only [exec, execRet, pop_error h, Except.map, settle_error]

theorem exec_skp_ok {x : Reg} {s : State} {k : Key} (h : (readV s x).toNat = k.val) :
    exec (.skp x) s = .next (skipIf (keyDown s k) s) := by
  simp only [exec, execSkp, keyIndex_ok h, Except.map, settle_ok]

theorem exec_skp_error {x : Reg} {s : State} (h : 15 < (readV s x).toNat) :
    exec (.skp x) s = .next (raise (.keyIndexOutOfRange (readV s x)) s) := by
  simp only [exec, execSkp, keyIndex_error h, Except.map, settle_error]

theorem exec_sknp_ok {x : Reg} {s : State} {k : Key} (h : (readV s x).toNat = k.val) :
    exec (.sknp x) s = .next (skipIf (!keyDown s k) s) := by
  simp only [exec, execSknp, keyIndex_ok h, Except.map, settle_ok]

theorem exec_sknp_error {x : Reg} {s : State} (h : 15 < (readV s x).toNat) :
    exec (.sknp x) s = .next (raise (.keyIndexOutOfRange (readV s x)) s) := by
  simp only [exec, execSknp, keyIndex_error h, Except.map, settle_error]

theorem exec_drw_ok (x y : Reg) {n : BitVec 4} {s : State} (h : n.toNat = 0 ∨ s.i.toNat + n.toNat ≤ 0x1000) :
    exec (.drw x y n) s = .next (advance (writeFlag
      { s with fb := (draw (readV s x) (readV s y) (s.mem.readBytes s.i.toNat n.toNat) s.fb).fb }
      (draw (readV s x) (readV s y) (s.mem.readBytes s.i.toNat n.toNat) s.fb).coll)) := by
  simp only [exec, execDrw, readAtI_ok h, Except.map, settle_ok]

theorem exec_drw_error (x y : Reg) {n : BitVec 4} {s : State} (h0 : 0 < n.toNat) (h : 0x1000 < s.i.toNat + n.toNat) :
    exec (.drw x y n) s = .next (raise (.outOfBounds s.i) s) := by
  simp only [exec, execDrw, readAtI_error h0 h, Except.map, settle_error]

theorem exec_ldBVx_ok (x : Reg) {s : State} (h : s.i.toNat + 2 ≤ 0xFFF) :
    exec (.ldBVx x) s =
      .next (advance { s with mem := s.mem.writeBytes s.i.toNat (decimalDigits (readV s x)) }) := by
  simp only [exec, execLdBVx]
  rw [writeAtI_ok (Or.inr (by simp; omega))]
  rfl

theorem exec_ldBVx_error (x : Reg) {s : State} (h : 0xFFF < s.i.toNat + 2) :
    exec (.ldBVx x) s = .next (raise (.outOfBounds s.i) s) := by
  simp only [exec, execLdBVx]
  rw [writeAtI_error (by simp [decimalDigits]) (by simp; omega)]
  rfl

theorem exec_ldMemVx_ok {x : Reg} {s : State} (h : s.i.toNat + x.val ≤ 0xFFF) :
    exec (.ldMemVx x) s = .next (advance { s with mem := s.mem.writeBytes s.i.toNat (blockOf s x) }) := by
  simp only [exec, execLdMemVx]
  rw [writeAtI_ok (Or.inr (by simp; omega))]
  rfl

theorem exec_ldMemVx_error {x : Reg} {s : State} (h : 0xFFF < s.i.toNat + x.val) :
    exec (.ldMemVx x) s = .next (raise (.outOfBounds s.i) s) := by
  simp only [exec, execLdMemVx]
  rw [writeAtI_error (by simp [← List.length_pos_iff]) (by simp; omega)]
  rfl

theorem exec_ldVxMem_ok {x : Reg} {s : State} (h : s.i.toNat + x.val ≤ 0xFFF) :
    exec (.ldVxMem x) s = .next (advance (writeBlock (s.mem.readBytes s.i.toNat (x.val + 1)) 0 s)) := by
  simp only [exec, execLdVxMem]
  rw [readAtI_ok (Or.inr (by omega))]
  rfl

theorem exec_ldVxMem_error {x : Reg} {s : State} (h : 0xFFF < s.i.toNat + x.val) :
    exec (.ldVxMem x) s = .next (raise (.outOfBounds s.i) s) := by
  simp only [exec, execLdVxMem]
  rw [readAtI_error (by omega) (by omega)]
  rfl

/-- The byte a read gives after the block `V[0]` to `V[x]` was stored at `I` on. -/
theorem read_storedBlock (s : State) (x : Reg) (a : Nat) :
    (s.mem.writeBytes s.i.toNat (blockOf s x)).read a =
      if h : s.i.toNat ≤ a ∧ a ≤ s.i.toNat + x.val then readV s ⟨a - s.i.toNat, by omega⟩ else s.mem.read a := by
  rw [Memory.read_writeBytes]
  by_cases h : s.i.toNat ≤ a ∧ a ≤ s.i.toNat + x.val
  · rw [dif_pos h, dif_pos (by simp; omega), getElem_blockOf]
  · rw [dif_neg h, dif_neg (by simp; omega)]

/-- A register after the block `V[0]` to `V[x]` was loaded from `I` on. -/
theorem readV_loadedBlock (s : State) (x r : Reg) :
    readV (writeBlock (s.mem.readBytes s.i.toNat (x.val + 1)) 0 s) r =
      if r ≤ x then s.mem.read (s.i.toNat + r.val) else readV s r := by
  rw [readV_writeBlock _ _ _ _ (by simp)]
  by_cases h : r ≤ x
  · rw [if_pos h, dif_pos (by rw [Fin.le_def] at h; simp; omega)]
    simp
  · rw [if_neg h, dif_neg (by rw [Fin.le_def] at h; simp; omega)]

end Sys2Proof.Machine
end

