-- ==== Sys2Proof/Laws/PerInstr.lean ====
section
/-!
SUPPORT. Laws stated for each instruction, one lemma a constructor. Family `EncodingRow`: the word of an instruction
selects, in the opcode map of spec 30_encoding.md R105, a row of the instruction's own mnemonic.
-/

namespace Sys2Proof.Laws.EncodingRow

/-- The row of an instruction's mnemonic is in the opcode map and the instruction's word selects it. -/
def Statement (i : Instr) : Prop := ∃ r ∈ opcodeMap, r.mnemonic = i.mnemonic ∧ r.selects (encode i) = true

theorem selectsNNN (op : BitVec 4) (nnn : BitVec 12) :
    formatNNN op nnn &&& 0xF000 = formatNNN op 0 := by
  apply BitVec.eq_of_getLsbD_eq
  intro k hk
  simp only [formatNNN, BitVec.getLsbD_and, BitVec.getLsbD_append]
  interval_cases k <;> simp

theorem selectsXNN (op : BitVec 4) (x : Reg) (nn : Byte) :
    formatXNN op x nn &&& 0xF000 = formatXNN op 0 0 := by
  apply BitVec.eq_of_getLsbD_eq
  intro k hk
  simp only [formatXNN, BitVec.getLsbD_and, BitVec.getLsbD_append]
  interval_cases k <;> simp

theorem selectsX (op : BitVec 4) (x : Reg) (nn : Byte) :
    formatXNN op x nn &&& 0xF0FF = formatXNN op 0 nn := by
  apply BitVec.eq_of_getLsbD_eq
  intro k hk
  simp only [formatXNN, BitVec.getLsbD_and, BitVec.getLsbD_append]
  interval_cases k <;> simp

theorem selectsXY (op : BitVec 4) (x y : Reg) (n : BitVec 4) :
    formatXYN op x y n &&& 0xF00F = formatXYN op 0 0 n := by
  apply BitVec.eq_of_getLsbD_eq
  intro k hk
  simp only [formatXYN, BitVec.getLsbD_and, BitVec.getLsbD_append]
  interval_cases k <;> simp

theorem selectsXYN (op : BitVec 4) (x y : Reg) (n : BitVec 4) :
    formatXYN op x y n &&& 0xF000 = formatXYN op 0 0 0 := by
  apply BitVec.eq_of_getLsbD_eq
  intro k hk
  simp only [formatXYN, BitVec.getLsbD_and, BitVec.getLsbD_append]
  interval_cases k <;> simp

theorem statement_of {i : Instr} (r : OpcodeRow) (h : r ∈ opcodeMap ∧ r.mnemonic = i.mnemonic)
    (hs : encode i &&& r.mask = r.pattern) : Statement i :=
  ⟨r, h.1, h.2, by simpa [OpcodeRow.selects] using hs⟩

theorem cls : Statement .cls :=
  statement_of ⟨"CLS", 0x00E0, 0xFFFF⟩ ⟨by decide, rfl⟩ (by decide)

theorem ret : Statement .ret :=
  statement_of ⟨"RET", 0x00EE, 0xFFFF⟩ ⟨by decide, rfl⟩ (by decide)

theorem jp (nnn : BitVec 12) : Statement (.jp nnn) :=
  statement_of ⟨"JP_nnn", 0x1000, 0xF000⟩ ⟨by decide, rfl⟩ (selectsNNN _ nnn)

theorem call (nnn : BitVec 12) : Statement (.call nnn) :=
  statement_of ⟨"CALL_nnn", 0x2000, 0xF000⟩ ⟨by decide, rfl⟩ (selectsNNN _ nnn)

theorem seImm (x : Reg) (nn : Byte) : Statement (.seImm x nn) :=
  statement_of ⟨"SE_Vx__nn", 0x3000, 0xF000⟩ ⟨by decide, rfl⟩ (selectsXNN _ x nn)

theorem sneImm (x : Reg) (nn : Byte) : Statement (.sneImm x nn) :=
  statement_of ⟨"SNE_Vx__nn", 0x4000, 0xF000⟩ ⟨by decide, rfl⟩ (selectsXNN _ x nn)

theorem seReg (x y : Reg) : Statement (.seReg x y) :=
  statement_of ⟨"SE_Vx__Vy", 0x5000, 0xF00F⟩ ⟨by decide, rfl⟩ (selectsXY _ x y _)

theorem ldImm (x : Reg) (nn : Byte) : Statement (.ldImm x nn) :=
  statement_of ⟨"LD_Vx__nn", 0x6000, 0xF000⟩ ⟨by decide, rfl⟩ (selectsXNN _ x nn)

theorem addImm (x : Reg) (nn : Byte) : Statement (.addImm x nn) :=
  statement_of ⟨"ADD_Vx__nn", 0x7000, 0xF000⟩ ⟨by decide, rfl⟩ (selectsXNN _ x nn)

theorem ldReg (x y : Reg) : Statement (.ldReg x y) :=
  statement_of ⟨"LD_Vx__Vy", 0x8000, 0xF00F⟩ ⟨by decide, rfl⟩ (selectsXY _ x y _)

theorem orReg (x y : Reg) : Statement (.orReg x y) :=
  statement_of ⟨"OR_Vx__Vy", 0x8001, 0xF00F⟩ ⟨by decide, rfl⟩ (selectsXY _ x y _)

theorem andReg (x y : Reg) : Statement (.andReg x y) :=
  statement_of ⟨"AND_Vx__Vy", 0x8002, 0xF00F⟩ ⟨by decide, rfl⟩ (selectsXY _ x y _)

theorem xorReg (x y : Reg) : Statement (.xorReg x y) :=
  statement_of ⟨"XOR_Vx__Vy", 0x8003, 0xF00F⟩ ⟨by decide, rfl⟩ (selectsXY _ x y _)

theorem addReg (x y : Reg) : Statement (.addReg x y) :=
  statement_of ⟨"ADD_Vx__Vy", 0x8004, 0xF00F⟩ ⟨by decide, rfl⟩ (selectsXY _ x y _)

theorem sub (x y : Reg) : Statement (.sub x y) :=
  statement_of ⟨"SUB_Vx__Vy", 0x8005, 0xF00F⟩ ⟨by decide, rfl⟩ (selectsXY _ x y _)

theorem shr (x y : Reg) : Statement (.shr x y) :=
  statement_of ⟨"SHR_Vx", 0x8006, 0xF00F⟩ ⟨by decide, rfl⟩ (selectsXY _ x y _)

theorem subn (x y : Reg) : Statement (.subn x y) :=
  statement_of ⟨"SUBN_Vx__Vy", 0x8007, 0xF00F⟩ ⟨by decide, rfl⟩ (selectsXY _ x y _)

theorem shl (x y : Reg) : Statement (.shl x y) :=
  statement_of ⟨"SHL_Vx", 0x800E, 0xF00F⟩ ⟨by decide, rfl⟩ (selectsXY _ x y _)

theorem sneReg (x y : Reg) : Statement (.sneReg x y) :=
  statement_of ⟨"SNE_Vx__Vy", 0x9000, 0xF00F⟩ ⟨by decide, rfl⟩ (selectsXY _ x y _)

theorem ldI (nnn : BitVec 12) : Statement (.ldI nnn) :=
  statement_of ⟨"LD_I__nnn", 0xA000, 0xF000⟩ ⟨by decide, rfl⟩ (selectsNNN _ nnn)

theorem jpV0 (nnn : BitVec 12) : Statement (.jpV0 nnn) :=
  statement_of ⟨"JP_V0__nnn", 0xB000, 0xF000⟩ ⟨by decide, rfl⟩ (selectsNNN _ nnn)

theorem rnd (x : Reg) (nn : Byte) : Statement (.rnd x nn) :=
  statement_of ⟨"RND_Vx__nn", 0xC000, 0xF000⟩ ⟨by decide, rfl⟩ (selectsXNN _ x nn)

theorem drw (x y : Reg) (n : BitVec 4) : Statement (.drw x y n) :=
  statement_of ⟨"DRW_Vx__Vy__n", 0xD000, 0xF000⟩ ⟨by decide, rfl⟩ (selectsXYN _ x y n)

theorem skp (x : Reg) : Statement (.skp x) :=
  statement_of ⟨"SKP_Vx", 0xE09E, 0xF0FF⟩ ⟨by decide, rfl⟩ (selectsX _ x _)

theorem sknp (x : Reg) : Statement (.sknp x) :=
  statement_of ⟨"SKNP_Vx", 0xE0A1, 0xF0FF⟩ ⟨by decide, rfl⟩ (selectsX _ x _)

theorem ldVxDt (x : Reg) : Statement (.ldVxDt x) :=
  statement_of ⟨"LD_Vx__DT", 0xF007, 0xF0FF⟩ ⟨by decide, rfl⟩ (selectsX _ x _)

theorem ldVxK (x : Reg) : Statement (.ldVxK x) :=
  statement_of ⟨"LD_Vx__K", 0xF00A, 0xF0FF⟩ ⟨by decide, rfl⟩ (selectsX _ x _)

theorem ldDtVx (x : Reg) : Statement (.ldDtVx x) :=
  statement_of ⟨"LD_DT__Vx", 0xF015, 0xF0FF⟩ ⟨by decide, rfl⟩ (selectsX _ x _)

theorem ldStVx (x : Reg) : Statement (.ldStVx x) :=
  statement_of ⟨"LD_ST__Vx", 0xF018, 0xF0FF⟩ ⟨by decide, rfl⟩ (selectsX _ x _)

theorem addIVx (x : Reg) : Statement (.addIVx x) :=
  statement_of ⟨"ADD_I__Vx", 0xF01E, 0xF0FF⟩ ⟨by decide, rfl⟩ (selectsX _ x _)

theorem ldFVx (x : Reg) : Statement (.ldFVx x) :=
  statement_of ⟨"LD_F__Vx", 0xF029, 0xF0FF⟩ ⟨by decide, rfl⟩ (selectsX _ x _)

theorem ldBVx (x : Reg) : Statement (.ldBVx x) :=
  statement_of ⟨"LD_B__Vx", 0xF033, 0xF0FF⟩ ⟨by decide, rfl⟩ (selectsX _ x _)

theorem ldMemVx (x : Reg) : Statement (.ldMemVx x) :=
  statement_of ⟨"LD__I___Vx", 0xF055, 0xF0FF⟩ ⟨by decide, rfl⟩ (selectsX _ x _)

theorem ldVxMem (x : Reg) : Statement (.ldVxMem x) :=
  statement_of ⟨"LD_Vx___I", 0xF065, 0xF0FF⟩ ⟨by decide, rfl⟩ (selectsX _ x _)

end Sys2Proof.Laws.EncodingRow
end

