-- ==== Sys2Proof/Tests/Slice0.lean ====
section
/-!
SUPPORT. The model's own tests. Expected results come from spec 95_test_vectors.md (the vector is named at each test) and
from the encodings of 30_encoding.md R105, never from the model. The witnesses at the end show, for every obligation
with hypotheses, values that meet them, each clause at a boundary of its range.
-/

namespace Sys2Proof.Tests

open Sys2Proof.Machine

/-! ### Helpers -/

/-- A state with these general registers written. -/
def withV (l : List (Reg × Byte)) (s : State) : State := l.foldl (fun s p => writeV s p.1 p.2) s

/-- A state with these bytes in memory from `a` on. -/
def withMem (a : Nat) (bytes : List Byte) (s : State) : State := { s with mem := s.mem.writeBytes a bytes }

/-- A state with these pixels inverted. -/
def withPixels (l : List (Column × Row)) (s : State) : State :=
  { s with fb := l.foldl (fun fb p => fb.invert p.1 p.2) s.fb }

/-- The next state of an outcome, reset if there is none. -/
def nextOf : Host.Outcome State Fault Refusal → State
  | .next t => t
  | .fault _ => State.reset
  | .refused _ => State.reset

/-- One step with the word `w` placed at `pc` (the convention of 95_test_vectors.md). -/
def ran (w : Nat) (s : State) : State := nextOf (step (s.withFetchWord 16 w))

/-- `STATE`, `ERR_KIND`, `ERR_INFO` and `pc`. -/
def halt (s : State) : Status × ErrKind × Word × Word := (s.status, s.errKind, s.errInfo, s.pc)

/-- The pixels that are on, column by column. -/
def onPixels (s : State) : List (Nat × Nat) :=
  (List.finRange 64).flatMap (fun px => ((List.finRange 32).filter (fun py => s.fb.pixel px py)).map
    (fun py => (px.val, py.val)))

/-! ### Well-formedness: an ill-formed tuple for each check (30_encoding.md R101) -/

theorem test_illformed_x : OperandNumbers.wellFormed { x := 16 } = false := by decide
theorem test_illformed_y : OperandNumbers.wellFormed { y := 16 } = false := by decide
theorem test_illformed_n : OperandNumbers.wellFormed { n := 16 } = false := by decide
theorem test_illformed_nn : OperandNumbers.wellFormed { nn := 256 } = false := by decide
theorem test_illformed_nnn : OperandNumbers.wellFormed { nnn := 4096 } = false := by decide
theorem test_wellformed_largest : OperandNumbers.wellFormed ⟨15, 15, 15, 255, 4095⟩ = true := by decide

/-! ### Decoding: a word written out for each constructor (30_encoding.md R105) -/

theorem test_decode_fixed_and_jumps :
    [0x00E0, 0x00EE, 0x1ABC, 0x2ABC, 0xAFFF, 0xB123].map decodeWord =
      [some .cls, some .ret, some (.jp 0xABC), some (.call 0xABC), some (.ldI 0xFFF), some (.jpV0 0x123)] := by decide

theorem test_decode_immediates :
    [0x3305, 0x4F00, 0x6A42, 0x70FF, 0xC00F].map decodeWord =
      [some (.seImm 3 0x05), some (.sneImm 15 0x00), some (.ldImm 10 0x42), some (.addImm 0 0xFF),
       some (.rnd 0 0x0F)] := by decide

theorem test_decode_registers_low :
    [0x5120, 0x8120, 0x8121, 0x8122, 0x8123, 0x8124].map decodeWord =
      [some (.seReg 1 2), some (.ldReg 1 2), some (.orReg 1 2), some (.andReg 1 2), some (.xorReg 1 2),
       some (.addReg 1 2)] := by decide

theorem test_decode_registers_high :
    [0x8125, 0x8126, 0x8127, 0x812E, 0x9120, 0xD123].map decodeWord =
      [some (.sub 1 2), some (.shr 1 2), some (.subn 1 2), some (.shl 1 2), some (.sneReg 1 2),
       some (.drw 1 2 3)] := by decide

theorem test_decode_keys_and_timers :
    [0xE49E, 0xE4A1, 0xF407, 0xF40A, 0xF415, 0xF418].map decodeWord =
      [some (.skp 4), some (.sknp 4), some (.ldVxDt 4), some (.ldVxK 4), some (.ldDtVx 4), some (.ldStVx 4)] := by
  decide

theorem test_decode_index_and_transfers :
    [0xF41E, 0xF429, 0xF433, 0xF455, 0xF465].map decodeWord =
      [some (.addIVx 4), some (.ldFVx 4), some (.ldBVx 4), some (.ldMemVx 4), some (.ldVxMem 4)] := by decide

/-- Vectors tU1 to tU14: words that are no instruction. -/
theorem test_decode_unknown :
    [0x0000, 0x00E1, 0x01E0, 0x0FEE, 0x5001, 0x9AB1, 0x8008, 0x800F, 0xE09F, 0xE000, 0xF000, 0xF075, 0xF030,
     0xFFFF].map decodeWord = List.replicate 14 none := by decide

/-- An instruction is two bytes, the high byte first (30_encoding.md R100, 20_memory.md R75; vector tF0). -/
theorem test_decode_bytes :
    decode [0x6A, 0x42, 0x99] = .ok (.ldImm 10 0x42, [0x99]) ∧ decode [0x6A] = .error .truncated ∧
    decode [] = .error .truncated ∧ decode [0x50, 0x01] = .error (.unknownInstruction 0x5001) := by decide

/-! ### Memory (20_memory.md) -/

/-- A write of the reset byte leaves nothing listed, and listed addresses rise (log entry 7). -/
theorem test_memory_canonical :
    let m := State.reset.mem
    ((m.write 0x300 0x12).write 0x300 0x00).cells = [] ∧
    ((m.write 0x300 0x12).write 0x001 0x13).cells = [(0x001, 0x13), (0x300, 0x12)] ∧
    (m.write 0x001 0x90).cells = [] := by decide

/-- Another table `FONT` is read where it stands and comes back with `RESET` (00_scope.md R6, 20_memory.md R84). -/
theorem test_other_font :
    let s := withMem 0x04F [0x12] (State.resetWith (Vector.replicate 80 0xAA))
    s.mem.read 0x000 = 0xAA ∧ s.mem.read 0x04F = 0x12 ∧ s.mem.read 0x050 = 0x00 ∧
      (resetMachine s).mem.read 0x04F = 0xAA := by decide

/-- The font table at reset (20_memory.md R84): first and last byte, and the byte after it. -/
theorem test_font_at_reset :
    State.reset.mem.read 0x000 = 0xF0 ∧ State.reset.mem.read 0x04F = 0x80 ∧ State.reset.mem.read 0x050 = 0x00 := by
  decide

/-! ### Fetch and unknown words (vectors tF1, tF3, tF4, tU1, tU3) -/

theorem test_tF1 : halt (nextOf (step { State.reset with pc := 0x0FFF })) = (.halted, .outOfBounds, 0x0FFF, 0x0FFF) := by
  decide
theorem test_tF3 : (ran 0x6A42 { State.reset with pc := 0x0201 }).pc = 0x203 := by decide
theorem test_tF4 : (ran 0x3000 { State.reset with pc := 0x0FFE }).pc = 0x1002 := by decide
theorem test_tU1 : halt (nextOf (step State.reset)) = (.halted, .unknownInstruction, 0x0000, 0x200) := by decide
theorem test_tU3 : halt (ran 0x01E0 State.reset) = (.halted, .unknownInstruction, 0x01E0, 0x200) := by decide

/-! ### Control flow (vectors tC1 to tC17) -/

theorem test_tC1 : (ran 0x1200 State.reset).pc = 0x200 := by decide
theorem test_tC2 : (ran 0x1FFF State.reset).pc = 0x0FFF := by decide
theorem test_tC3 :
    let t := ran 0x2ABC { State.reset with pc := 0x0FFE, sp := 15 }
    t.stack[15] = 0x1000 ∧ t.sp.val = 16 ∧ t.pc = 0x0ABC := by decide
theorem test_tC4 : halt (ran 0x2300 { State.reset with sp := 16 }) = (.halted, .stackOverflow, 0x200, 0x200) := by decide
theorem test_tC5 :
    let t := ran 0x00EE { State.reset with sp := 2, stack := (State.reset.stack.set 0 0x0206).set 1 0x0456 }
    t.sp.val = 1 ∧ t.pc = 0x0456 ∧ t.stack[1] = 0x0456 := by decide
theorem test_tC6 : halt (ran 0x00EE State.reset) = (.halted, .stackUnderflow, 0x200, 0x200) := by decide
theorem test_tC7 : (ran 0xB2FF (withV [(0, 0x01)] State.reset)).pc = 0x0300 := by decide
theorem test_tC8 : (ran 0xBFFF (withV [(0, 0xFF)] State.reset)).pc = 0x10FE := by decide
theorem test_tC9 : (ran 0x3F00 State.reset).pc = 0x204 := by decide
/-- Property T9: `V3 = 6` against 5. -/
theorem test_T9 : (ran 0x3305 (withV [(3, 0x06)] State.reset)).pc = 0x202 := by decide
theorem test_tC16 : (ran 0x4305 (withV [(3, 0x05)] State.reset)).pc = 0x202 := by decide
theorem test_tC17 : (ran 0x4305 (withV [(3, 0x06)] State.reset)).pc = 0x204 := by decide
theorem test_tC11 : (ran 0x5AA0 (withV [(10, 0x33)] State.reset)).pc = 0x204 := by decide
theorem test_tC13 : (ran 0x5120 (withV [(1, 0x01), (2, 0x02)] State.reset)).pc = 0x202 := by decide
theorem test_tC14 : (ran 0x9120 (withV [(1, 0x02), (2, 0x02)] State.reset)).pc = 0x202 := by decide
theorem test_tC15 : (ran 0x9120 (withV [(1, 0x01), (2, 0x02)] State.reset)).pc = 0x204 := by decide

/-! ### Registers and arithmetic (vectors tA1 to tA26) -/

theorem test_tA23 : readV (ran 0x6FAB State.reset) 15 = 0xAB := by decide
theorem test_tA22 :
    let t := ran 0x70FF (withV [(0, 0xFF), (15, 0x09)] State.reset)
    readV t 0 = 0xFE ∧ readV t 15 = 0x09 := by decide
theorem test_tA24 : readV (ran 0x8AB0 (withV [(11, 0x42)] State.reset)) 10 = 0x42 := by decide
theorem test_tA18 :
    let t := ran 0x8011 (withV [(0, 0xA5), (1, 0x5A), (15, 0x77)] State.reset)
    readV t 0 = 0xFF ∧ readV t 15 = 0x77 := by decide
theorem test_tA19 :
    let t := ran 0x8012 (withV [(0, 0xA5), (1, 0x0F), (15, 0x77)] State.reset)
    readV t 0 = 0x05 ∧ readV t 15 = 0x77 := by decide
theorem test_tA20 :
    let t := ran 0x8003 (withV [(0, 0xA5), (15, 0x77)] State.reset)
    readV t 0 = 0x00 ∧ readV t 15 = 0x77 := by decide
theorem test_tA1 :
    let t := ran 0x8014 (withV [(0, 0xFF), (1, 0x01)] State.reset)
    readV t 0 = 0x00 ∧ readV t 15 = 0x01 := by decide
theorem test_tA6 : readV (ran 0x8FF4 (withV [(15, 0x81)] State.reset)) 15 = 0x02 := by decide
theorem test_tA7 :
    let t := ran 0x8015 (withV [(0, 0x10), (1, 0x10)] State.reset)
    readV t 0 = 0x00 ∧ readV t 15 = 0x01 := by decide
theorem test_tA10 :
    let t := ran 0x80F5 (withV [(0, 0x05), (15, 0x06)] State.reset)
    readV t 0 = 0xFF ∧ readV t 15 = 0x00 := by decide
theorem test_tA11 :
    let t := ran 0x8017 (withV [(0, 0x0A), (1, 0x05)] State.reset)
    readV t 0 = 0xFB ∧ readV t 15 = 0x00 := by decide
theorem test_tA13 : readV (ran 0x8F17 (withV [(15, 0x02), (1, 0x01)] State.reset)) 15 = 0xFF := by decide
theorem test_tA14 :
    let t := ran 0x80A6 (withV [(0, 0x01), (10, 0xFF)] State.reset)
    readV t 0 = 0x00 ∧ readV t 15 = 0x01 ∧ readV t 10 = 0xFF := by decide
theorem test_tA25 :
    let t := ran 0x8126 (withV [(1, 0x87)] State.reset)
    readV t 1 = 0x43 ∧ readV t 15 = 0x01 := by decide
theorem test_tA17 : readV (ran 0x8F0E (withV [(15, 0xC1)] State.reset)) 15 = 0x82 := by decide
theorem test_tA26 :
    let t := ran 0x812E (withV [(1, 0x87)] State.reset)
    readV t 1 = 0x0E ∧ readV t 15 = 0x01 := by decide

/-! ### Memory index (vectors tM1 to tM7) -/

theorem test_tM1 : (ran 0xAFFF State.reset).i = 0x0FFF := by decide
theorem test_tM3 : (ran 0xF029 (withV [(0, 0x1A)] State.reset)).i = 0x0032 := by decide
theorem test_tM4 : (ran 0xF329 (withV [(3, 0xFF)] State.reset)).i = 0x004B := by decide
/-- Vector tM7: a mask of 0 gives 0 whatever is drawn. -/
theorem test_tM7 : (readV (ran 0xC000 (withV [(0, 0x55)] State.reset)) 0).toNat = 0 := by
  have h : ∀ b : Byte, (b &&& 0x00).toNat = 0 := by decide
  exact h (Config.rand8 0)

/-! ### Display (vectors tD1 to tD10) -/

theorem test_tD1 :
    let t := ran 0x00E0 (withV [(15, 0x01)] (withPixels [(0, 0), (63, 31)] State.reset))
    onPixels t = [] ∧ readV t 15 = 0x01 := by decide
theorem test_tD2 :
    let t := ran 0xD012 (withV [(0, 0x3E), (1, 0x1F)] (withMem 0x300 [0xC3, 0x81] { State.reset with i := 0x300 }))
    onPixels t = [(4, 31), (5, 0), (5, 31), (62, 0), (62, 31), (63, 31)] ∧ readV t 15 = 0x00 := by decide
theorem test_tD4 :
    let t := ran 0xD011 (withPixels [(1, 0), (5, 0)] (withMem 0x300 [0xF0] { State.reset with i := 0x300 }))
    onPixels t = [(0, 0), (2, 0), (3, 0), (5, 0)] ∧ readV t 15 = 0x01 := by decide

/-! ### Keys, timers, transfers (vectors tK1 to tK23) -/

theorem test_tK1 :
    (ran 0xE09E (withV [(0, 0x03)] { State.reset with key := State.reset.key.set 3 true })).pc = 0x204 := by decide
theorem test_tK5 : halt (ran 0xE09E (withV [(0, 0x10)] State.reset)) = (.halted, .keyIndex, 0x0010, 0x200) := by decide
theorem test_tK3 : (ran 0xE0A1 (withV [(0, 0x03)] State.reset)).pc = 0x204 := by decide
theorem test_tK6 : halt (ran 0xE0A1 (withV [(0, 0xFF)] State.reset)) = (.halted, .keyIndex, 0x00FF, 0x200) := by decide
theorem test_tK7 :
    let t := ran 0xFF0A (withV [(15, 0x55)] State.reset)
    t.status = .awaitKey ∧ t.waitReg = 15 ∧ t.pc = 0x202 ∧ readV (keyEvent 0 true t) 15 = 0x00 ∧
      (keyEvent 0 true t).status = .running := by decide
theorem test_tK8 : readV (ran 0xF007 { State.reset with dt := 0x80 }) 0 = 0x80 := by decide
theorem test_tK9 : (ran 0xF015 (withV [(0, 0xFF)] State.reset)).dt = 0xFF := by decide
theorem test_tK10 : (ran 0xF018 { State.reset with st := 0x01 }).st = 0x00 := by decide
theorem test_tK11 :
    let t := ran 0xF01E (withV [(0, 0x01), (15, 0x05)] { State.reset with i := 0x0FFF })
    t.i = 0x1000 ∧ readV t 15 = 0x05 ∧ t.status = .running := by decide
theorem test_tK12 : (ran 0xF01E (withV [(0, 0x02)] { State.reset with i := 0xFFFF })).i = 0x0001 := by decide
theorem test_tK14 :
    let t := ran 0xFF55 (withV [(0, 0x01)] { State.reset with i := 0x0FF1 })
    halt t = (.halted, .outOfBounds, 0x0FF1, 0x200) ∧ t.mem.read 0xFF1 = 0x00 := by decide
theorem test_tK23 :
    let t := ran 0xF055 (withV [(0, 0x12)] { State.reset with i := 0x0201 })
    t.mem.wordAt 0x200 = 0xF012 ∧ t.i = 0x0201 ∧ t.pc = 0x202 := by decide
theorem test_tK17 :
    let t := ran 0xF265 (withV [(3, 0x77)] State.reset)
    readV t 0 = 0xF0 ∧ readV t 1 = 0x90 ∧ readV t 2 = 0x90 ∧ readV t 3 = 0x77 ∧ t.i = 0x0000 := by decide
theorem test_tK18 :
    let t := ran 0xF165 (withV [(0, 0x11), (1, 0x22)] { State.reset with i := 0x0FFF })
    halt t = (.halted, .outOfBounds, 0x0FFF, 0x200) ∧ readV t 0 = 0x11 := by decide
theorem test_tK19 :
    (ran 0xF033 (withV [(0, 0xFF)] { State.reset with i := 0x0FFD })).mem.readBytes 0xFFD 3 = [0x02, 0x05, 0x05] := by
  decide
theorem test_tK20 :
    halt (ran 0xF033 (withV [(0, 0xFF)] { State.reset with i := 0x0FFE })) = (.halted, .outOfBounds, 0x0FFE, 0x200) := by
  decide

/-! ### Ticks, key events, reset, load (vectors tX1 to tX13) -/

theorem test_tX1 :
    let r := tick { State.reset with dt := 0x02, st := 0x01 }
    r.2 = true ∧ r.1.dt = 0x01 ∧ r.1.st = 0x00 := by decide
theorem test_tX3 : (tick State.reset).2 = false ∧ (tick State.reset).1 = State.reset := by decide
theorem test_tX6 :
    let s := { State.reset with status := .halted, errKind := .stackUnderflow }
    nextOf (cpuStep s) = s ∧ report s = (2, 3) := by decide
theorem test_tX8 :
    let s := { State.reset with status := .awaitKey, waitReg := 3, key := State.reset.key.set 7 true }
    keyEvent 7 true s = s := by decide
theorem test_tX10 :
    let t := keyEvent 7 true { State.reset with status := .awaitKey, waitReg := 3 }
    keyDown t 7 = true ∧ readV t 3 = 0x07 ∧ t.status = .running := by decide
theorem test_tX12 :
    resetMachine (withMem 0x300 [0x12] { State.reset with
      status := .halted, errKind := .stackOverflow, errInfo := 0x0200, sp := 16 }) = State.reset := by decide
theorem test_tX13 :
    nextOf (act (.load [0x12, 0x00]) State.reset) = { State.reset with mem := ⟨Config.defaultFont, [(0x200, 0x12)]⟩ } := by decide

/-! ### Witnesses: values that meet the hypotheses of each obligation, each clause at a boundary of its range -/

theorem witness_DecodeInvertsEncode : (Instr.drw 15 15 15).wellFormed = true := by decide

theorem witness_EncodeInvertsDecode :
    decodeWord 0xDFFF = some (.drw 15 15 15) ∧ decodeWord 0x00E0 = some .cls := by decide

/-- `pc` at its largest for a fetch. -/
theorem witness_StepRunsTheDecodedInstruction :
    let s := withMem 0xFFE [0x6F, 0xAB] { State.reset with pc := 0x0FFE }
    s.schedule = [] ∧ s.status = .running ∧ s.pc.toNat ≤ 0xFFE ∧
      decode [s.mem.read s.pc.toNat, s.mem.read (s.pc.toNat + 1)] = .ok (.ldImm 15 0xAB, []) ∧
      (Instr.ldImm 15 0xAB).wellFormed = true := by decide

theorem witness_ScheduledActionsAreTaken :
    State.reset.schedule = [] ∧
    { State.reset with schedule := [.tick, .step], st := 0x01 }.schedule = AgentAction.tick :: [.step] := by decide

theorem witness_PlacedWordRunsNext :
    decodeTableWord 16 0xFF65 = some (.ldVxMem 15) ∧ decodeTableWord 16 0x00E0 = some .cls := by decide

/-- An empty access anywhere, the last byte of memory, and one byte more. -/
theorem witness_CheckRangeRejectsExactly :
    ((0 : Nat) = 0 ∨ 0xFFFF + 0 ≤ 0x1000) ∧ (1 = 0 ∨ 0xFFF + 1 ≤ 0x1000) ∧ (0 < 2 ∧ 0x1000 < 0xFFF + 2) := by decide

theorem witness_FetchIsBigEndianAndBounded :
    { State.reset with pc := 0x0FFE }.pc.toNat ≤ 0xFFE ∧ 0xFFE < { State.reset with pc := 0x0FFF }.pc.toNat ∧
    { State.reset with pc := 0x0FFF }.status = .running := by decide

/-- Each check of a step is the first to fail in some state, and some state passes all. -/
theorem witness_FatalConditionsInOrder :
    State.reset.status = .running ∧ 0xFFE < { State.reset with pc := 0x0FFF }.pc.toNat ∧
    decodeWord (State.reset.mem.wordAt 0x200) = none ∧
    decodeWord ((withMem 0x200 [0x00, 0xEE] State.reset).mem.wordAt 0x200) = some .ret ∧
    fatalCondition .ret State.reset = some (.stackUnderflow, 0x200) ∧
    fatalCondition .ret { State.reset with sp := 1 } = none := by decide

/-- The hypothesis of the refusing case: one byte more than the largest image. -/
theorem witness_StepAnswersANextState :
    let s := { State.reset with schedule := [.load (List.replicate 3585 0x00)] }
    s.schedule = .load (List.replicate 3585 0x00) :: [] ∧ 3584 < (List.replicate 3585 (0x00 : Byte)).length :=
  ⟨rfl, by rw [List.length_replicate]; omega⟩

theorem witness_CallPushesTheReturnAddress :
    State.reset.sp.val = (0 : Fin 16).val ∧ { State.reset with sp := 15 }.sp.val = (15 : Fin 16).val ∧
    { State.reset with sp := 16 }.sp.val = 16 := by decide

theorem witness_ReturnPopsIntoThePc :
    { State.reset with sp := 1 }.sp.val = (0 : Fin 16).val + 1 ∧
    { State.reset with sp := 16 }.sp.val = (15 : Fin 16).val + 1 ∧ State.reset.sp.val = 0 := by decide

/-- A call from depth 15, and a body that does nothing. -/
theorem witness_CallThenReturnComesBack :
    let s := { State.reset with sp := 15 }
    let body := nextOf (exec (.call 0x300) s)
    s.sp.val < 16 ∧ body.sp = (nextOf (exec (.call 0x300) s)).sp ∧
      ∀ k : Fin 16, body.stack[k.val] = (nextOf (exec (.call 0x300) s)).stack[k.val] := by decide

theorem witness_SkipsOnRegisters : (1 : BitVec 4) ≠ 0 ∧ (15 : BitVec 4) ≠ 0 := by decide

theorem witness_PcMovesInThreeWays :
    fatalCondition (.call 0x300) { State.reset with sp := 15 } = none ∧
    fatalCondition (.call 0x300) { State.reset with sp := 16 } ≠ none := by decide

/-- The destination below VF, for the flag clauses of the arithmetic statements. -/
theorem witness_AddRegistersWithCarryOut : (14 : Reg) ≠ 15 := by decide
theorem witness_SubtractionsWithNotBorrow : (0 : Reg) ≠ 15 ∧ (14 : Reg) ≠ 15 := by decide
theorem witness_ShiftsByOne : (14 : Reg) ≠ 15 := by decide

/-- A sprite with one bit, at the last byte of memory. -/
def spriteAtTop : State := withMem 0xFFF [0x01] { State.reset with i := 0x0FFF }

/-- The bit of `spriteAtTop` lands on (7, 0), and not on (8, 0). -/
theorem spriteAtTop_covers : SpriteCovers spriteAtTop 0x00 0x00 1 7 0 := ⟨0, 7, by decide⟩

theorem spriteAtTop_covers_not : ¬ SpriteCovers spriteAtTop 0x00 0x00 1 8 0 := by
  rintro ⟨r, c, hr, hc, hx, -⟩
  have : (8 : Column).val = 8 := rfl
  have : (0x00 : Byte).toNat = 0 := rfl
  omega

/-- No rows anywhere; the last row at 0xFFF; the last row at 0x1000; a covered pixel that is on, and one that is off. -/
theorem witness_DrawInvertsTheSprite :
    ((0 : BitVec 4).toNat = 0 ∨ { State.reset with i := 0xFFFF }.i.toNat + (0 : BitVec 4).toNat - 1 ≤ 0xFFF) ∧
    ((1 : BitVec 4).toNat = 0 ∨ spriteAtTop.i.toNat + (1 : BitVec 4).toNat - 1 ≤ 0xFFF) ∧
    (0 < (2 : BitVec 4).toNat ∧ 0xFFF < spriteAtTop.i.toNat + (2 : BitVec 4).toNat - 1) ∧
    SpriteCovers spriteAtTop 0x00 0x00 1 7 0 ∧ ¬ SpriteCovers spriteAtTop 0x00 0x00 1 8 0 ∧
    (SpriteCovers (withPixels [(7, 0)] spriteAtTop) 0x00 0x00 1 7 0 ∧
      (withPixels [(7, 0)] spriteAtTop).fb.pixel 7 0 = true) ∧
    ¬ ∃ px py, SpriteCovers spriteAtTop (readV spriteAtTop 0) (readV spriteAtTop 0) 1 px py ∧
      spriteAtTop.fb.pixel px py = true := by
  refine ⟨by decide, by decide, by decide, spriteAtTop_covers, spriteAtTop_covers_not, ⟨⟨0, 7, by decide⟩, by decide⟩, ?_⟩
  rintro ⟨px, py, -, h⟩
  have : ∀ (px : Column) (py : Row), spriteAtTop.fb.pixel px py = false := by
    intro px py
    simp [spriteAtTop, withMem, State.reset, State.resetWith, Framebuffer.pixel]
  rw [this] at h
  exact Bool.noConfusion h

/-- Two draws of the one-bit sprite, and a pixel it covers that was off. -/
theorem witness_DrawTwiceRestoresTheScreen :
    let t := nextOf (exec (.drw 0 1 1) spriteAtTop)
    let u := nextOf (exec (.drw 0 1 1) t)
    (exec (.drw 0 1 1) spriteAtTop = .next t ∧ readV t 0 = readV spriteAtTop 0 ∧ readV t 1 = readV spriteAtTop 1 ∧
      exec (.drw 0 1 1) t = .next u) ∧
    ((1 : BitVec 4).toNat = 0 ∨ spriteAtTop.i.toNat + (1 : BitVec 4).toNat - 1 ≤ 0xFFF) ∧
    (SpriteCovers spriteAtTop 0x00 0x00 1 7 0 ∧ spriteAtTop.fb.pixel 7 0 = false) :=
  ⟨⟨rfl, by decide, by decide, rfl⟩, by decide, spriteAtTop_covers, by decide⟩

theorem witness_SkipsOnAKey :
    (readV (withV [(0, 0x0F)] State.reset) 0).toNat = (15 : Key).val ∧
    15 < (readV (withV [(0, 0x10)] State.reset) 0).toNat := by decide

/-- A key that is down, a release, and a key that is up. -/
theorem witness_KeyWait :
    let t := nextOf (exec (.ldVxK 3) { State.reset with key := State.reset.key.set 7 true })
    (keyDown t 7 = true ∨ true = false) ∧ (keyDown t 0 = true ∨ false = false) ∧ keyDown t 15 = false := by decide

theorem witness_KeyEventSetsOneKey :
    let s := { State.reset with status := .awaitKey }
    (s.status = .awaitKey ∧ keyDown s 15 = false ∧ true = true) ∧
    ¬ (s.status = .awaitKey ∧ keyDown s 15 = false ∧ false = true) ∧
    ¬ (State.reset.status = .awaitKey ∧ keyDown State.reset 15 = false ∧ true = true) := by decide

theorem witness_StoreRegisters :
    { State.reset with i := 0x0FF0 }.i.toNat + (15 : Reg).val ≤ 0xFFF ∧
    0xFFF < { State.reset with i := 0x0FF1 }.i.toNat + (15 : Reg).val ∧ (15 : Reg) ≤ 15 := by decide

theorem witness_LoadRegisters :
    { State.reset with i := 0x0FFF }.i.toNat + (0 : Reg).val ≤ 0xFFF ∧
    0xFFF < { State.reset with i := 0x0FFF }.i.toNat + (1 : Reg).val ∧ (0 : Reg) ≤ 0 := by decide

theorem witness_StoreDecimalDigits :
    { State.reset with i := 0x0FFD }.i.toNat + 2 ≤ 0xFFF ∧ 0xFFF < { State.reset with i := 0x0FFE }.i.toNat + 2 := by
  decide

/-- A later state with the same `I` and memory and other registers. -/
theorem witness_StoreThenLoadGivesRegistersBack :
    let s := withV [(0, 0x12)] { State.reset with i := 0x0FF0 }
    let t := nextOf (exec (.ldMemVx 15) s)
    let later := withV [(0, 0x99)] t
    s.i.toNat + (15 : Reg).val ≤ 0xFFF ∧ later.i = t.i ∧ (∀ a, later.mem.read a = t.mem.read a) ∧ (15 : Reg) ≤ 15 :=
  ⟨by decide, rfl, fun _ => rfl, by decide⟩

/-- Both bytes of the next instruction are stored, at the last address it can have: by `LD [I], V1`, and by `LD B, Vx` with
its tens and ones digits. -/
theorem witness_StoredBytesAreFetchedNext :
    let s := { State.reset with i := 0x0FFE, pc := 0x0FFC }
    let d := { State.reset with i := 0x0FFD, pc := 0x0FFC }
    (s.pc.toNat + 2 ≤ 0xFFE ∧ s.i.toNat + (1 : Reg).val ≤ 0xFFF ∧
      s.i.toNat + (0 : Reg).val = s.pc.toNat + 2 ∧ s.i.toNat + (1 : Reg).val = s.pc.toNat + 3) ∧
    (d.pc.toNat + 2 ≤ 0xFFE ∧ d.i.toNat + 2 ≤ 0xFFF ∧ d.i.toNat + 1 = d.pc.toNat + 2 ∧ d.i.toNat + 2 = d.pc.toNat + 3 ∧
      [(readV d 0).toNat / 100, (readV d 0).toNat / 10 % 10, (readV d 0).toNat % 10][2]? = some 0) := by decide

theorem witness_HaltedStaysHalted :
    let s := { State.reset with status := .halted, errKind := .keyIndex, errInfo := 0x00FF, st := 0x01 }
    s.status = .halted ∧ AgentAction.step ≠ .reset ∧ act .step s = .next s ∧ State.reset.mem.font = s.mem.font :=
  ⟨rfl, by decide, rfl, rfl⟩

/-- The wait is entered by an instruction and by the step that runs it, and left by a key press. -/
theorem witness_WaitEndsOnlyByAKeyPress :
    let p := withMem 0x200 [0xF3, 0x0A] State.reset
    let s := nextOf (exec (.ldVxK 3) p)
    let t := nextOf (act (.keyEvent 15 true) s)
    (exec (.ldVxK 3) p = .next s ∧ p.status ≠ .awaitKey ∧ s.status = .awaitKey) ∧
    act .step p = .next s ∧ (act (.keyEvent 15 true) s = .next t ∧ t.status ≠ .awaitKey) :=
  ⟨⟨rfl, by decide, by decide⟩, rfl, rfl, by decide⟩

theorem witness_InstructionsChangeOnlyTheirOwnParts :
    exec (.addReg 0 1) State.reset = .next (nextOf (exec (.addReg 0 1) State.reset)) := rfl

/-- Registers that are written and not read, in a load, `RND` and a flag write, with no fatal condition; and one that is
read. -/
theorem witness_RegistersNotListedAreNotRead :
    (¬ regRead 15 (.ldImm 15 0xAB) ∧ regWritten 15 (.ldImm 15 0xAB) ∧ fatalCondition (.ldImm 15 0xAB) State.reset = none) ∧
    (¬ regRead 0 (.rnd 0 0xFF) ∧ regWritten 0 (.rnd 0 0xFF)) ∧ (¬ regRead 15 (.shr 0 15) ∧ regWritten 15 (.shr 0 15)) ∧
    (¬ regRead 0 (.ldVxMem 15) ∧ regWritten 0 (.ldVxMem 15) ∧
      fatalCondition (.ldVxMem 15) { State.reset with i := 0x0FF0 } = none) ∧
    regRead 15 (.addReg 0 15) := by
  simp [regRead, regWritten, fatalCondition, vf]

/-- Two states that differ in `ST` and `STATE`. -/
theorem witness_HiddenRegistersAreNotRead :
    OnlyChanges State.reset { State.reset with st := 0xFF, status := .halted, errKind := .keyIndex } isHidden := by
  intro p hp
  cases p <;> first | rfl | exact absurd (by simp [isHidden]) hp

/-- Each way of writing a hidden register: `LD ST`, the wait, and a fatal condition. -/
theorem witness_hiddenWritten :
    hiddenWritten (.ldStVx 0) State.reset .st ∧ hiddenWritten (.ldVxK 0) State.reset .waitReg ∧
    hiddenWritten .ret State.reset .errInfo ∧ ¬ hiddenWritten .ret { State.reset with sp := 1 } .errInfo := by
  refine ⟨.inl ⟨rfl, 0, rfl⟩, .inr (.inl ⟨by decide, 0, rfl⟩), .inr (.inr ⟨by decide, by decide⟩), ?_⟩
  rintro (⟨h, -⟩ | ⟨-, x, h⟩ | ⟨-, h⟩)
  · exact absurd h (by decide)
  · exact absurd h (by simp)
  · exact absurd h (by decide)

/-- The largest `pc` the invariant admits, a full stack, and a halted state. -/
theorem witness_StepKeepsTheInvariant :
    let s := { State.reset with pc := 0x10FE, sp := 16, stack := State.reset.stack.set 15 0x1000,
                                status := .halted, errKind := .outOfBounds, errInfo := 0x10FE }
    (MachineInv State.reset ∧ step State.reset = .next (nextOf (step State.reset))) ∧
    (MachineInv s ∧ step s = .next s) :=
  ⟨⟨⟨by decide, by decide, by decide, by decide, by decide⟩, rfl⟩, ⟨by decide, by decide, by decide, by decide, by decide⟩, rfl⟩

/-- The machine of another table, and one reset after it has run and drawn. -/
theorem witness_ResetGivesTheTable :
    let font : FontTable := Vector.replicate 80 0xAA
    let s := { State.resetWith font with pc := 0x300, draws := 1 }
    (State.resetWith font = State.resetWith font ∨ ∃ s, s.mem.font = font ∧ act .reset s = .next (State.resetWith font)) ∧
    (s.mem.font = font ∧ act .reset s = .next (resetMachine s)) :=
  ⟨.inl rfl, rfl, rfl⟩

theorem witness_FontTableNeverChanges :
    exec .cls State.reset = .next (nextOf (exec .cls State.reset)) ∧
    step State.reset = .next (nextOf (step State.reset)) := ⟨rfl, rfl⟩

/-- The largest image, with a byte of it, and one byte more. -/
theorem witness_LoadWritesTheImage :
    (List.replicate 3584 (0xAB : Byte)).length ≤ 3584 ∧
    (List.replicate 3584 (0xAB : Byte))[3583]? = some 0xAB ∧
    3584 < (List.replicate 3585 (0xAB : Byte)).length := by
  rw [List.length_replicate, List.length_replicate, List.getElem?_replicate, if_pos (by omega)]
  exact ⟨le_rfl, rfl, by omega⟩

theorem witness_LaunchStartsAtTheImage :
    (List.replicate 3582 (0xAB : Byte)).length + 2 ≤ 3584 ∧
    (List.replicate 3582 (0xAB : Byte))[3581]? = some 0xAB := by
  rw [List.length_replicate, List.getElem?_replicate, if_pos (by omega)]
  exact ⟨le_rfl, rfl⟩

/-- Vector tC1, and the end of a program in the last word of memory. -/
theorem witness_SelfJumpChangesNothing :
    Ended (withMem 0x200 [0x12, 0x00] State.reset) ∧
    Ended (withMem 0xFFE [0x1F, 0xFE] { State.reset with pc := 0x0FFE }) :=
  ⟨⟨by decide, by decide, by decide⟩, ⟨by decide, by decide, by decide⟩⟩

end Sys2Proof.Tests
end

section
/-!
SUPPORT. The calculus of frames: a piece of state reads the same (`StatePart.Same`) in an equivalence, frames compose, and
each named update of Machine/ has the frame of what it writes (spec 10_state.md R36).
-/

namespace Sys2Proof.Machine

/-! ### Composing frames -/

theorem StatePart.Same.refl (s : State) (p : StatePart) : p.Same s s := by cases p <;> rfl

theorem StatePart.Same.symm {s t : State} {p : StatePart} (h : p.Same s t) : p.Same t s := by
  cases p <;> exact Eq.symm h

theorem StatePart.Same.trans {s t u : State} {p : StatePart} (h : p.Same s t) (h' : p.Same t u) : p.Same s u := by
  cases p <;> exact Eq.trans h' h

theorem OnlyChanges.refl (s : State) (C : StatePart → Prop) : OnlyChanges s s C := fun p _ => .refl s p

theorem OnlyChanges.mono {s t : State} {C D : StatePart → Prop} (h : OnlyChanges s t C) (hCD : ∀ p, C p → D p) :
    OnlyChanges s t D := fun p hp => h p fun hc => hp (hCD p hc)

/-- One update after the other changes at most what either changes. -/
theorem OnlyChanges.trans {s t u : State} {C D : StatePart → Prop} (h : OnlyChanges s t C) (h' : OnlyChanges t u D) :
    OnlyChanges s u (fun p => C p ∨ D p) := fun p hp =>
  (h p fun hc => hp (.inl hc)).trans (h' p fun hd => hp (.inr hd))

/-- Two states that agree outside `P`, both updated within `W`, and both to the same values there, agree outside what of
`P` was not updated. -/
theorem OnlyChanges.both {s s' t t' : State} {P W : StatePart → Prop} (h : OnlyChanges s s' P) (ht : OnlyChanges s t W)
    (ht' : OnlyChanges s' t' W) (hw : ∀ p, W p → p.Same t t') : OnlyChanges t t' (fun p => P p ∧ ¬ W p) := by
  intro p hp
  by_cases hW : W p
  · exact hw p hW
  · exact (ht p hW).symm.trans ((h p fun hP => hp ⟨hP, hW⟩).trans (ht' p hW))

/-! ### The frame of each update -/

theorem writeV_frame (s : State) (x : Reg) (b : Byte) : OnlyChanges s (writeV s x b) (· = .v x) := by
  intro p hp
  cases p with
  | v r => exact (readV_writeV s x r b).trans (if_neg fun e => hp (congrArg _ e))
  | _ => rfl

theorem writeI_frame (s : State) (a : Word) : OnlyChanges s (writeI s a) (· = .i) := by
  intro p hp
  cases p with
  | i => exact absurd rfl hp
  | _ => rfl

theorem nextPc_frame (s : State) (n : NextPc) : OnlyChanges s (nextPc s n) (· = .pc) := by
  intro p hp
  cases p with
  | pc => exact absurd rfl hp
  | _ => cases n <;> rfl

theorem advance_frame (s : State) : OnlyChanges s (advance s) (· = .pc) := nextPc_frame s .next

theorem skipIf_frame (c : Bool) (s : State) : OnlyChanges s (skipIf c s) (· = .pc) := nextPc_frame s _

theorem raise_frame (f : Fault) (s : State) :
    OnlyChanges s (raise f s) (fun p => p = .status ∨ p = .errKind ∨ p = .errInfo) := by
  intro p hp
  cases p with
  | status | errKind | errInfo => exact absurd (by simp) hp
  | _ => rfl

theorem awaitKey_frame (x : Reg) (s : State) : OnlyChanges s (awaitKey x s) (fun p => p = .status ∨ p = .waitReg) := by
  intro p hp
  cases p with
  | status | waitReg => exact absurd (by simp) hp
  | _ => rfl

theorem loadDt_frame (b : Byte) (s : State) : OnlyChanges s (loadDt b s) (· = .dt) := by
  intro p hp
  cases p with
  | dt => exact absurd rfl hp
  | _ => rfl

theorem loadSt_frame (b : Byte) (s : State) : OnlyChanges s (loadSt b s) (· = .st) := by
  intro p hp
  cases p with
  | st => exact absurd rfl hp
  | _ => rfl

theorem drawByte_frame (s : State) : OnlyChanges s (drawByte s).2 (· = .draws) := by
  intro p hp
  cases p with
  | draws => exact absurd rfl hp
  | _ => rfl

theorem writeKey_frame (s : State) (k : Key) (v : Bool) : OnlyChanges s (writeKey s k v) (· = .key k) := by
  intro p hp
  cases p with
  | key j => exact (keyDown_writeKey s k j v).trans (if_neg fun e => hp (congrArg _ e))
  | _ => rfl

theorem wake_frame (k : Key) (s : State) : OnlyChanges s (wake k s) (fun p => p = .v s.waitReg ∨ p = .status) := by
  intro p hp
  cases p with
  | v r => exact (readV_wake k s r).trans (if_neg fun e => hp (.inl (congrArg _ e)))
  | status => exact absurd (.inr rfl) hp
  | _ => rfl

/-- A new framebuffer is a change of pixels only. -/
theorem setFb_frame (s : State) (fb : Framebuffer) :
    OnlyChanges s { s with fb := fb } (fun p => ∃ px py, p = .pixel px py) := by
  intro p hp
  cases p with
  | pixel px py => exact absurd ⟨px, py, rfl⟩ hp
  | _ => rfl

theorem clearScreen_frame (s : State) : OnlyChanges s (clearScreen s) (fun p => ∃ px py, p = .pixel px py) :=
  setFb_frame s _

/-- A write of bytes changes memory inside its block only. -/
theorem writeBytes_frame (s : State) (addr : Nat) (bs : List Byte) :
    OnlyChanges s { s with mem := s.mem.writeBytes addr bs } (fun p => ∃ k < bs.length, p = .mem (addr + k)) := by
  intro p hp
  cases p with
  | mem a =>
    refine (Memory.read_writeBytes bs s.mem addr a).trans (dif_neg fun ⟨hlo, hhi⟩ => hp ⟨a - addr, by omega, ?_⟩)
    rw [Nat.add_sub_cancel' hlo]
  | font => exact Memory.writeBytes_font bs s.mem addr
  | _ => rfl

/-- New registers are a change of those that read differently only. -/
theorem setRegisters_frame (s : State) (v : Vector Byte 16) (C : StatePart → Prop)
    (h : ∀ r : Reg, ¬ C (.v r) → v[r.val] = readV s r) : OnlyChanges s { s with v := v } C := by
  intro p hp
  cases p with
  | v r => exact h r hp
  | _ => rfl

/-- `SP` and `pc` written together, as `CALL` and `RET` do. -/
theorem setSpPc_frame (s : State) (sp : Fin 17) (w : Word) :
    OnlyChanges s { s with sp := sp, pc := w } (fun p => p = .sp ∨ p = .pc) := by
  intro p hp
  cases p with
  | sp | pc => exact absurd (by simp) hp
  | _ => rfl

theorem setStack_frame (s : State) (k : Nat) (hk : k < 16) (w : Word) :
    OnlyChanges s { s with stack := s.stack.set k w hk } (· = .stack ⟨k, hk⟩) := by
  intro p hp
  cases p with
  | stack j => exact Vector.getElem_set_ne hk j.isLt fun e => hp (congrArg _ (Fin.ext e.symm))
  | _ => rfl

/-- The write of an ALU result changes its register, and VF when there is a flag (41_register_arithmetic.md R162). -/
theorem aluWrite_frame (s : State) (x : Reg) (o : AluOut) :
    OnlyChanges s (aluWrite s x o) (fun p => p = .v x ∨ (o.flag.isSome ∧ p = .v vf)) := by
  rcases o with ⟨res, _ | f⟩
  · exact (writeV_frame s x res).mono fun _ => .inl
  · refine ((writeV_frame s vf (flagByte f)).trans (writeV_frame _ x res)).mono ?_
    rintro p (rfl | rfl) <;> simp

theorem aluInto_frame (op : AluOp) (x : Reg) (a b : Byte) (s : State) :
    OnlyChanges s (aluInto op x a b s)
      (fun p => (p = .v x ∨ ((alu op a b).flag.isSome ∧ p = .v vf)) ∨ p = .pc) :=
  (aluWrite_frame s x (alu op a b)).trans (advance_frame _)

/-! ### The cases of the host's actions (10_state.md R46) -/

theorem keyEvent_wakes {k : Key} {v : Bool} {s : State} (h : s.status = .awaitKey ∧ keyDown s k = false ∧ v = true) :
    keyEvent k v s = wake k (writeKey s k v) := if_pos h

theorem keyEvent_sets {k : Key} {v : Bool} {s : State} (h : ¬ (s.status = .awaitKey ∧ keyDown s k = false ∧ v = true)) :
    keyEvent k v s = writeKey s k v := if_neg h

theorem loadImage_ok {image : List Byte} (s : State) (h : image.length ≤ 3584) :
    loadImage image s = .next { s with mem := s.mem.writeBytes 0x200 image } := if_pos h

theorem loadImage_refused {image : List Byte} (s : State) (h : 3584 < image.length) :
    loadImage image s = .refused (.imageTooLong image.length) := if_neg (Nat.not_le.2 h)

end Sys2Proof.Machine
end

section
/-!
SUPPORT. What each instruction can do (spec 60_exceptions.md R210, R216): it takes its fatal condition, or it runs
normally, and then it changes only the parts of `normalWrites` and leaves `pc` at one of `nextPcs`.
-/

namespace Sys2Proof.Machine

/-! ### When an instruction runs normally -/

theorem fatalCondition_call_eq_none (nnn : BitVec 12) (s : State) :
    fatalCondition (.call nnn) s = none ↔ s.sp.val < 16 := by
  have := s.sp.isLt
  simp only [fatalCondition, ite_eq_right_iff, reduceCtorEq, imp_false]
  omega

theorem fatalCondition_ret_eq_none (s : State) : fatalCondition .ret s = none ↔ 0 < s.sp.val := by
  simp only [fatalCondition, ite_eq_right_iff, reduceCtorEq, imp_false]
  omega

theorem fatalCondition_drw_eq_none (x y : Reg) (n : BitVec 4) (s : State) :
    fatalCondition (.drw x y n) s = none ↔ n.toNat = 0 ∨ s.i.toNat + n.toNat ≤ 0x1000 := by
  simp only [fatalCondition, ite_eq_right_iff, reduceCtorEq, imp_false]
  omega

theorem fatalCondition_ldBVx_eq_none (x : Reg) (s : State) :
    fatalCondition (.ldBVx x) s = none ↔ s.i.toNat + 2 ≤ 0xFFF := by simp [fatalCondition]

theorem fatalCondition_ldMemVx_eq_none (x : Reg) (s : State) :
    fatalCondition (.ldMemVx x) s = none ↔ s.i.toNat + x.val ≤ 0xFFF := by simp [fatalCondition]

theorem fatalCondition_ldVxMem_eq_none (x : Reg) (s : State) :
    fatalCondition (.ldVxMem x) s = none ↔ s.i.toNat + x.val ≤ 0xFFF := by simp [fatalCondition]

/-- A register value of at most 15 is a key. -/
theorem exists_key_iff (a : Byte) : (∃ k : Key, a.toNat = k.val) ↔ a.toNat ≤ 15 :=
  ⟨fun ⟨k, hk⟩ => by omega, fun h => ⟨⟨a.toNat, by omega⟩, rfl⟩⟩

theorem fatalCondition_skp_eq_none (x : Reg) (s : State) :
    fatalCondition (.skp x) s = none ↔ ∃ k : Key, (readV s x).toNat = k.val := by
  rw [exists_key_iff]
  simp [fatalCondition]

theorem fatalCondition_sknp_eq_none (x : Reg) (s : State) :
    fatalCondition (.sknp x) s = none ↔ ∃ k : Key, (readV s x).toNat = k.val := by
  rw [exists_key_iff]
  simp [fatalCondition]

/-- An instruction whose fatal condition holds takes it, with the kind and info of the table of 60_exceptions.md R210. -/
theorem exec_fatal {i : Instr} {s : State} {kind : ErrKind} {info : Word}
    (h : fatalCondition i s = some (kind, info)) :
    ∃ f : Fault, exec i s = .next (raise f s) ∧ f.kind = kind ∧ f.info = info := by
  cases i <;> simp only [fatalCondition, reduceCtorEq, Option.ite_none_right_eq_some, Option.some.injEq,
    Prod.mk.injEq] at h <;> obtain ⟨hc, rfl, rfl⟩ := h
  case call nnn => exact ⟨_, exec_call_error nnn hc, rfl, rfl⟩
  case ret => exact ⟨_, exec_ret_error hc, rfl, rfl⟩
  case drw x y n => exact ⟨_, exec_drw_error x y hc.1 (by omega), rfl, rfl⟩
  case skp x => exact ⟨_, exec_skp_error hc, rfl, (BitVec.ofNat_toNat 16 _).symm⟩
  case sknp x => exact ⟨_, exec_sknp_error hc, rfl, (BitVec.ofNat_toNat 16 _).symm⟩
  case ldBVx x => exact ⟨_, exec_ldBVx_error x hc, rfl, rfl⟩
  case ldMemVx x => exact ⟨_, exec_ldMemVx_error hc, rfl, rfl⟩
  case ldVxMem x => exact ⟨_, exec_ldVxMem_error hc, rfl, rfl⟩

/-! ### What an instruction that runs normally writes -/

/-- The parts an instruction writes when it runs normally from `s`: the tables of 10_state.md R23, R24, R27, R28, R30, R33
and 20_memory.md R76, by instruction (`mayChange` is by part). -/
def normalWrites (i : Instr) (s : State) (p : StatePart) : Prop :=
  p = .pc ∨ match i with
    | .cls => ∃ px py, p = .pixel px py
    | .drw _ _ _ => p = .v vf ∨ ∃ px py, p = .pixel px py
    | .ret => p = .sp
    | .call _ => p = .sp ∨ ∃ k : Fin 16, k.val = s.sp.val ∧ p = .stack k
    | .jp _ | .jpV0 _ | .seImm _ _ | .sneImm _ _ | .seReg _ _ | .sneReg _ _ | .skp _ | .sknp _ => False
    | .ldImm x _ | .addImm x _ | .ldReg x _ | .orReg x _ | .andReg x _ | .xorReg x _ | .ldVxDt x => p = .v x
    | .addReg x _ | .sub x _ | .subn x _ | .shr x _ | .shl x _ => p = .v x ∨ p = .v vf
    | .rnd x _ => p = .v x ∨ p = .draws
    | .ldI _ | .ldFVx _ | .addIVx _ => p = .i
    | .ldDtVx _ => p = .dt
    | .ldStVx _ => p = .st
    | .ldVxK _ => p = .status ∨ p = .waitReg
    | .ldBVx _ => ∃ k < 3, p = .mem (s.i.toNat + k)
    | .ldMemVx x => ∃ k < x.val + 1, p = .mem (s.i.toNat + k)
    | .ldVxMem x => ∃ r ≤ x, p = .v r

/-- The end of an instruction that ran normally. -/
structure NormalEnd (i : Instr) (s t : State) : Prop where
  frame : OnlyChanges s t (normalWrites i s)
  pc : t.pc ∈ nextPcs i s
  mem : t.mem = s.mem ∨ ∃ bs : List Byte, s.i.toNat + bs.length ≤ 0x1000 ∧ t.mem = s.mem.writeBytes s.i.toNat bs

section
variable {i : Instr} {s t : State}

/-- A normal end by the default advance. -/
theorem NormalEnd.of_advance {W : StatePart → Prop} (h : OnlyChanges s t W) (hw : ∀ p, W p → normalWrites i s p)
    (hpc : t.pc = s.pc) (hn : nextPcs i s = [s.pc + 2])
    (hm : t.mem = s.mem ∨ ∃ bs : List Byte, s.i.toNat + bs.length ≤ 0x1000 ∧ t.mem = s.mem.writeBytes s.i.toNat bs) :
    NormalEnd i s (advance t) where
  frame := (h.trans (advance_frame t)).mono fun p hp => hp.elim (hw p) .inl
  pc := by simp [hn, hpc]
  mem := hm

/-- A normal end by a skip. -/
theorem NormalEnd.of_skipIf (c : Bool) (hn : nextPcs i s = [s.pc + 2, s.pc + 4]) : NormalEnd i s (skipIf c s) where
  frame := (skipIf_frame c s).mono fun _ => .inl
  pc := by rw [skipIf_pc, hn]; cases c <;> simp
  mem := .inl (skipIf_mem c s)

/-- A normal end by a jump. -/
theorem NormalEnd.of_load {w : Word} (hn : w ∈ nextPcs i s) : NormalEnd i s (nextPc s (.load w)) where
  frame := (nextPc_frame s _).mono fun _ => .inl
  pc := hn
  mem := .inl rfl

/-- The normal end of an ALU instruction. -/
theorem NormalEnd.of_aluInto {op : AluOp} {x : Reg} {a b : Byte} (hx : normalWrites i s (.v x))
    (hf : (alu op a b).flag.isSome → normalWrites i s (.v vf)) (hn : nextPcs i s = [s.pc + 2]) :
    NormalEnd i s (aluInto op x a b s) where
  frame := (aluInto_frame op x a b s).mono (by
    rintro p ((rfl | ⟨hflag, rfl⟩) | rfl)
    · exact hx
    · exact hf hflag
    · exact .inl rfl)
  pc := by simp [aluInto_eq, hn]
  mem := .inl (by rw [aluInto_eq])

end

@[simp] theorem writeBlock_pc (bs : List Byte) (k : Nat) (s : State) : (writeBlock bs k s).pc = s.pc := by
  rw [writeBlock_eq]

@[simp] theorem writeBlock_mem (bs : List Byte) (k : Nat) (s : State) : (writeBlock bs k s).mem = s.mem := by
  rw [writeBlock_eq]

/-- The load of `V[0]` to `V[x]` from memory changes these registers only. -/
theorem loadedBlock_frame (s : State) (x : Reg) :
    OnlyChanges s (writeBlock (s.mem.readBytes s.i.toNat (x.val + 1)) 0 s) (fun p => ∃ r ≤ x, p = .v r) := by
  rw [writeBlock_eq]
  refine setRegisters_frame s _ _ fun r hr => (readV_loadedBlock s x r).trans (if_neg fun hle => hr ⟨r, hle, rfl⟩)

/-- The zero extension of an address field is the address as a number (30_encoding.md R103). -/
theorem addrOf_eq (nnn : BitVec 12) : addrOf nnn = BitVec.ofNat 16 nnn.toNat := (BitVec.ofNat_toNat 16 nnn).symm

/-- The sum of `JP V0, nnn` (40_control_flow.md R133) as a number. -/
theorem addrOf_add_wordOf (nnn : BitVec 12) (b : Byte) :
    addrOf nnn + wordOf b = BitVec.ofNat 16 (nnn.toNat + b.toNat) := by
  rw [addrOf_eq, wordOf, ← BitVec.ofNat_toNat, ← BitVec.ofNat_add]

/-- An instruction whose fatal condition does not hold ends normally. -/
theorem exec_normal {i : Instr} {s : State} (h : fatalCondition i s = none) :
    ∃ t, exec i s = .next t ∧ NormalEnd i s t := by
  cases i with
  | cls => exact ⟨_, rfl, .of_advance (clearScreen_frame s) (fun _ => .inr) rfl rfl (.inl rfl)⟩
  | ret =>
    have hsp := (fatalCondition_ret_eq_none s).1 h
    refine ⟨_, exec_ret_ok hsp, ⟨?_, ?_, .inl rfl⟩⟩
    · exact (setSpPc_frame s _ _).mono fun _ => Or.symm
    · have := s.sp.isLt
      simp [nextPcs]
  | jp nnn => exact ⟨_, rfl, .of_load (by simp [nextPcs, addrOf_eq])⟩
  | jpV0 nnn => exact ⟨_, rfl, .of_load (by simp [nextPcs, addrOf_add_wordOf])⟩
  | call nnn =>
    have hsp := (fatalCondition_call_eq_none nnn s).1 h
    refine ⟨_, exec_call_ok nnn hsp, ⟨?_, by simp [nextPcs, addrOf_eq], .inl rfl⟩⟩
    refine ((setStack_frame s _ hsp _).trans (setSpPc_frame _ _ _)).mono ?_
    rintro p (rfl | rfl | rfl)
    · exact .inr (.inr ⟨_, rfl, rfl⟩)
    · exact .inr (.inl rfl)
    · exact .inl rfl
  | seImm x nn | sneImm x nn | seReg x y | sneReg x y => exact ⟨_, rfl, .of_skipIf _ rfl⟩
  | skp x =>
    obtain ⟨k, hk⟩ := (fatalCondition_skp_eq_none x s).1 h
    exact ⟨_, exec_skp_ok hk, .of_skipIf _ rfl⟩
  | sknp x =>
    obtain ⟨k, hk⟩ := (fatalCondition_sknp_eq_none x s).1 h
    exact ⟨_, exec_sknp_ok hk, .of_skipIf _ rfl⟩
  | ldImm x nn | addImm x nn | ldReg x y | orReg x y | andReg x y | xorReg x y =>
    exact ⟨_, rfl, .of_aluInto (.inr rfl) nofun rfl⟩
  | addReg x y | sub x y | subn x y | shr x y | shl x y =>
    exact ⟨_, rfl, .of_aluInto (.inr (.inl rfl)) (fun _ => .inr (.inr rfl)) rfl⟩
  | ldI nnn | addIVx x | ldFVx x => exact ⟨_, rfl, .of_advance (writeI_frame s _) (fun _ => .inr) rfl rfl (.inl rfl)⟩
  | rnd x nn =>
    refine ⟨_, rfl, .of_advance ((drawByte_frame s).trans (aluWrite_frame _ x _)) ?_ rfl rfl (.inl rfl)⟩
    rintro p (rfl | rfl | ⟨hf, rfl⟩)
    · exact .inr (.inr rfl)
    · exact .inr (.inl rfl)
    · exact absurd hf nofun
  | drw x y n =>
    have hi := (fatalCondition_drw_eq_none x y n s).1 h
    refine ⟨_, exec_drw_ok x y hi, .of_advance ((setFb_frame s _).trans (writeV_frame _ vf _)) ?_ rfl rfl (.inl rfl)⟩
    exact fun p hp => .inr hp.symm
  | ldVxDt x => exact ⟨_, rfl, .of_advance (writeV_frame s x _) (fun _ => .inr) rfl rfl (.inl rfl)⟩
  | ldVxK x => exact ⟨_, rfl, .of_advance (awaitKey_frame x s) (fun _ => .inr) rfl rfl (.inl rfl)⟩
  | ldDtVx x => exact ⟨_, rfl, .of_advance (loadDt_frame _ s) (fun _ => .inr) rfl rfl (.inl rfl)⟩
  | ldStVx x => exact ⟨_, rfl, .of_advance (loadSt_frame _ s) (fun _ => .inr) rfl rfl (.inl rfl)⟩
  | ldBVx x =>
    have hi := (fatalCondition_ldBVx_eq_none x s).1 h
    exact ⟨_, exec_ldBVx_ok x hi, .of_advance (writeBytes_frame s _ _) (fun _ => .inr) rfl rfl
      (.inr ⟨_, by rw [length_decimalDigits]; omega, rfl⟩)⟩
  | ldMemVx x =>
    have hi := (fatalCondition_ldMemVx_eq_none x s).1 h
    refine ⟨_, exec_ldMemVx_ok hi, .of_advance (writeBytes_frame s _ _) ?_ rfl rfl
      (.inr ⟨_, by rw [length_blockOf]; omega, rfl⟩)⟩
    rw [length_blockOf]
    exact fun _ => .inr
  | ldVxMem x =>
    have hi := (fatalCondition_ldVxMem_eq_none x s).1 h
    exact ⟨_, exec_ldVxMem_ok hi, .of_advance (loadedBlock_frame s x) (fun _ => .inr) (writeBlock_pc _ _ s) rfl
      (.inl (writeBlock_mem _ _ s))⟩

end Sys2Proof.Machine
end

section
/-!
SUPPORT. What every instruction does, derived from its two ways to end; the statements about all instructions that follow
from it (spec 10_state.md R23, R25, R36).
-/

namespace Sys2Proof.Machine

/-- Everything an instruction can do: take its fatal condition, or end normally. -/
theorem exec_cases (i : Instr) (s : State) :
    (∃ f : Fault, fatalCondition i s = some (f.kind, f.info) ∧ exec i s = .next (raise f s)) ∨
    (fatalCondition i s = none ∧ ∃ t, exec i s = .next t ∧ NormalEnd i s t) := by
  rcases hf : fatalCondition i s with _ | ⟨kind, info⟩
  · exact .inr ⟨rfl, exec_normal hf⟩
  · obtain ⟨f, hexec, rfl, rfl⟩ := exec_fatal hf
    exact .inl ⟨f, rfl, hexec⟩

/-- Settles O19: a fatal condition leaves `pc`, and a normal end leaves it at one of `nextPcs`. -/
theorem pcMovesInThreeWays : Obligations.PcMovesInThreeWays := by
  intro i s
  rcases exec_cases i s with ⟨f, hf, hexec⟩ | ⟨hf, t, hexec, hend⟩
  · exact ⟨_, hexec, fun hnone => by simp [hf] at hnone, fun _ => rfl⟩
  · exact ⟨t, hexec, fun _ => hend.pc, fun hsome => absurd hf hsome⟩

/-- The status registers are listed for every instruction with a fatal condition (10_state.md R33). -/
theorem mayChange_of_fatal {i : Instr} {s : State} (h : fatalCondition i s ≠ none) :
    ∀ p, p = .status ∨ p = .errKind ∨ p = .errInfo → mayChange i s p := by
  cases i with
  | call | ret | drw | skp | sknp | ldBVx | ldMemVx | ldVxMem => rintro p (rfl | rfl | rfl) <;> simp [mayChange]
  | _ => exact absurd rfl h

/-- The tables by part admit every part a normal run writes. -/
theorem mayChange_of_normalWrites {i : Instr} {s : State} {p : StatePart} (h : normalWrites i s p) :
    mayChange i s p := by
  rcases h with rfl | h
  · trivial
  · cases i with
    | jp | jpV0 | seImm | sneImm | seReg | sneReg | skp | sknp => exact h.elim
    | cls =>
      obtain ⟨px, py, rfl⟩ := h
      exact .inl rfl
    | drw x y n =>
      obtain rfl | ⟨px, py, rfl⟩ := h
      · exact rfl
      · exact .inr ⟨x, y, n, rfl⟩
    | call nnn =>
      obtain rfl | ⟨k, hk, rfl⟩ := h
      · exact .inl ⟨nnn, rfl⟩
      · exact ⟨nnn, rfl, hk⟩
    | ldBVx x =>
      obtain ⟨k, hk, rfl⟩ := h
      exact .inl ⟨x, rfl, by omega, by omega⟩
    | ldMemVx x =>
      obtain ⟨k, hk, rfl⟩ := h
      exact .inr ⟨x, rfl, by omega, by omega⟩
    | ldVxMem x =>
      obtain ⟨r, hr, rfl⟩ := h
      exact hr
    | addReg | sub | subn | shr | shl | rnd | ldVxK => obtain rfl | rfl := h <;> simp [mayChange, regWritten]
    | ret | ldImm | addImm | ldReg | orReg | andReg | xorReg | ldVxDt | ldI | ldFVx | addIVx | ldDtVx | ldStVx =>
      obtain rfl := h
      simp [mayChange, regWritten]

/-- Settles O44: a fatal condition changes the three status registers, a normal end only what the tables list. -/
theorem instructionsChangeOnlyTheirOwnParts : Obligations.InstructionsChangeOnlyTheirOwnParts := by
  intro i s t ht
  rcases exec_cases i s with ⟨f, hf, hexec⟩ | ⟨-, u, hexec, hend⟩ <;> cases hexec.symm.trans ht
  · exact (raise_frame f s).mono (mayChange_of_fatal (by simp [hf]))
  · exact hend.frame.mono fun _ => mayChange_of_normalWrites

end Sys2Proof.Machine
end

section
/-!
SUPPORT. The invariant of the machine is kept by every action of every agent (spec 10_state.md R20, R26, R33).
-/

namespace Sys2Proof.Machine

/-- The invariant speaks of memory, the status registers, `pc` and the stack only. -/
theorem MachineInv.congr {s t : State} (h : MachineInv s) (hmem : t.mem = s.mem) (hstatus : t.status = s.status)
    (hkind : t.errKind = s.errKind) (hinfo : t.errInfo = s.errInfo) (hpc : t.pc = s.pc) (hstack : t.stack = s.stack) :
    MachineInv t where
  memCanonical := hmem ▸ h.memCanonical
  haltedIffError := by rw [hstatus, hkind]; exact h.haltedIffError
  noErrorNoInfo := by rw [hkind, hinfo]; exact h.noErrorNoInfo
  pcBound := hpc ▸ h.pcBound
  returnBound := hstack ▸ h.returnBound

theorem resetWith_inv (font : FontTable) : MachineInv (State.resetWith font) where
  memCanonical := State.resetWith_mem_wf font
  haltedIffError := by simp
  noErrorNoInfo _ := rfl
  pcBound := by simp
  returnBound k := by simp

theorem resetMachine_inv (s : State) : MachineInv (resetMachine s) :=
  (resetWith_inv s.mem.font).congr rfl rfl rfl rfl rfl rfl

theorem Fault.kind_ne_none (f : Fault) : f.kind ≠ .none := by cases f <;> simp [Fault.kind]

theorem raise_inv (f : Fault) {s : State} (h : MachineInv s) : MachineInv (raise f s) where
  memCanonical := h.memCanonical
  haltedIffError := by simp [f.kind_ne_none]
  noErrorNoInfo hnone := absurd hnone f.kind_ne_none
  pcBound := h.pcBound
  returnBound := h.returnBound

/-- A core that is not halted has no error recorded. -/
theorem MachineInv.errKind_eq_none {s : State} (h : MachineInv s) (hs : s.status ≠ .halted) : s.errKind = .none :=
  Classical.not_not.1 fun hk => hs (h.haltedIffError.2 hk)

theorem tick_inv {s : State} (h : MachineInv s) : MachineInv (tick s).1 := h.congr rfl rfl rfl rfl rfl rfl

theorem keyEvent_inv (k : Key) (v : Bool) {s : State} (h : MachineInv s) : MachineInv (keyEvent k v s) := by
  by_cases hwait : s.status = .awaitKey ∧ keyDown s k = false ∧ v = true
  · have hkind : s.errKind = .none := h.errKind_eq_none (by simp [hwait.1])
    rw [keyEvent_wakes hwait]
    exact ⟨h.memCanonical, by simp [hkind], h.noErrorNoInfo, h.pcBound, h.returnBound⟩
  · rw [keyEvent_sets hwait]
    exact h.congr rfl rfl rfl rfl rfl rfl

theorem loadImage_inv {image : List Byte} {s t : State} (h : MachineInv s) (ht : loadImage image s = .next t) :
    MachineInv t := by
  by_cases hlen : image.length ≤ 3584
  · cases (loadImage_ok s hlen).symm.trans ht
    exact ⟨Memory.writeBytes_wf image h.memCanonical (.inr (by omega)), h.haltedIffError, h.noErrorNoInfo, h.pcBound,
      h.returnBound⟩
  · cases (loadImage_refused s (Nat.not_le.1 hlen)).symm.trans ht

/-- From a `pc` that was fetched from, and with return addresses in bounds, the next `pc` is at most 0x10FE, the largest
target of `JP V0, nnn` (10_state.md R26). -/
theorem nextPcs_le {i : Instr} {s : State} (hpc : s.pc.toNat ≤ 0xFFE)
    (hstack : ∀ k : Fin 16, s.stack[k.val].toNat ≤ 0x1000) {w : Word} (hw : w ∈ nextPcs i s) : w.toNat ≤ 0x10FE := by
  have hadd : (s.pc + 2).toNat ≤ 0x1000 ∧ (s.pc + 4).toNat ≤ 0x1002 := by
    constructor <;> bv_omega
  cases i
  case jp nnn | call nnn =>
    cases List.mem_singleton.1 hw
    have := nnn.isLt
    rw [BitVec.toNat_ofNat]
    omega
  case jpV0 nnn =>
    cases List.mem_singleton.1 hw
    have := nnn.isLt
    have := (readV s 0).isLt
    rw [BitVec.toNat_ofNat]
    omega
  case ret =>
    obtain ⟨hk, rfl⟩ : ∃ hk : s.sp.val - 1 < 16, s.stack[s.sp.val - 1] = w := by
      simpa [nextPcs, Vector.getElem?_eq_some_iff] using hw
    exact (hstack ⟨_, hk⟩).trans (by omega)
  case seImm | sneImm | seReg | sneReg | skp | sknp =>
    simp only [nextPcs, List.mem_cons, List.not_mem_nil, or_false] at hw
    rcases hw with rfl | rfl <;> omega
  all_goals
    cases List.mem_singleton.1 hw
    omega

theorem exists_ldVxK_of_normalWrites_status {i : Instr} {s : State} (h : normalWrites i s .status) :
    ∃ x, i = .ldVxK x := by
  cases i <;> simp [normalWrites] at h ⊢

theorem not_normalWrites_errKind (i : Instr) (s : State) : ¬ normalWrites i s .errKind := by
  cases i <;> simp [normalWrites]

theorem not_normalWrites_errInfo (i : Instr) (s : State) : ¬ normalWrites i s .errInfo := by
  cases i <;> simp [normalWrites]

/-- Running normally, an instruction records no error and does not halt: of the status registers only `LD Vx, K` writes
`STATE`, and it waits (60_exceptions.md R216, R227). -/
theorem NormalEnd.status {i : Instr} {s t : State} (h : NormalEnd i s t) (ht : exec i s = .next t) :
    (t.status = s.status ∨ t.status = .awaitKey) ∧ t.errKind = s.errKind ∧ t.errInfo = s.errInfo := by
  refine ⟨?_, h.frame _ (not_normalWrites_errKind i s), h.frame _ (not_normalWrites_errInfo i s)⟩
  by_cases hw : normalWrites i s .status
  · obtain ⟨x, rfl⟩ := exists_ldVxK_of_normalWrites_status hw
    cases ht
    exact .inr rfl
  · exact .inl (h.frame _ hw)

/-- Running normally, an instruction writes no stack entry but the return address of `CALL` (10_state.md R26, R27). -/
theorem NormalEnd.stack {i : Instr} {s t : State} (h : NormalEnd i s t) (ht : exec i s = .next t)
    (hf : fatalCondition i s = none) (k : Fin 16) : t.stack[k.val] = s.stack[k.val] ∨ t.stack[k.val] = s.pc + 2 := by
  by_cases hw : normalWrites i s (.stack k)
  · cases i <;> simp [normalWrites] at hw
    case call nnn =>
      have hsp := (fatalCondition_call_eq_none nnn s).1 hf
      cases ht.symm.trans (exec_call_ok nnn hsp)
      exact .inr (by simp [hw])
  · exact .inl (h.frame _ hw)

theorem exec_inv {i : Instr} {s t : State} (h : MachineInv s) (hrun : s.status = .running) (hpc : s.pc.toNat ≤ 0xFFE)
    (ht : exec i s = .next t) : MachineInv t := by
  rcases exec_cases i s with ⟨f, -, hexec⟩ | ⟨hf, u, hexec, hend⟩ <;> cases hexec.symm.trans ht
  · exact raise_inv f h
  · have hkind : s.errKind = .none := h.errKind_eq_none (by simp [hrun])
    obtain ⟨hstatus, htkind, htinfo⟩ := hend.status ht
    refine ⟨?_, ?_, fun _ => htinfo.trans (h.noErrorNoInfo hkind), nextPcs_le hpc h.returnBound hend.pc, fun k => ?_⟩
    · rcases hend.mem with hmem | ⟨bs, hbs, hmem⟩ <;> rw [hmem]
      · exact h.memCanonical
      · exact Memory.writeBytes_wf bs h.memCanonical (.inr hbs)
    · rcases hstatus with hstatus | hstatus <;> simp [hstatus, htkind, hkind, hrun]
    · rcases hend.stack ht hf k with hk | hk <;> rw [hk]
      · exact h.returnBound k
      · bv_omega

theorem cpuStep_inv {s t : State} (h : MachineInv s) (ht : cpuStep s = .next t) : MachineInv t := by
  rcases hs : s.status with _ | _ | _
  · rw [cpuStep_running hs] at ht
    rcases runInstruction_cases s with ⟨-, hr⟩ | ⟨-, -, hr⟩ | ⟨i, hpc, -, hr⟩ <;> rw [hr] at ht
    · cases ht
      exact raise_inv _ h
    · cases ht
      exact raise_inv _ h
    · exact exec_inv h hs hpc ht
  · cases (cpuStep_awaitKey hs).symm.trans ht
    exact h
  · cases (cpuStep_halted hs).symm.trans ht
    exact h

/-- Every action of every agent keeps the invariant (10_state.md R20). -/
theorem act_inv {a : AgentAction} {s t : State} (h : MachineInv s) (ht : act a s = .next t) : MachineInv t := by
  cases a with
  | step => exact cpuStep_inv h ht
  | tick => cases ht; exact tick_inv h
  | keyEvent k v => cases ht; exact keyEvent_inv k v h
  | reset => cases ht; exact resetMachine_inv s
  | load image => exact loadImage_inv h ht

/-- Settles O47: a step is one action, on the state with that action taken off the schedule. -/
theorem stepKeepsTheInvariant : Obligations.StepKeepsTheInvariant :=
  fun s _ h ht => act_inv (s := { s with schedule := (nextAction s).2 }) (h.congr rfl rfl rfl rfl rfl rfl) ht

/-- Settles O48: reset memory lists nothing, the core runs without error, and `pc` and the stack are in bounds. -/
theorem resetMeetsTheInvariant : Obligations.ResetMeetsTheInvariant :=
  ⟨resetWith_inv _, resetWith_inv, resetMachine_inv⟩

end Sys2Proof.Machine
end

section
/-!
SUPPORT. Noninterference: two states that agree in all an instruction reads (spec 10_state.md R23, R28, R33) give the same
values to all it writes.
-/

namespace Sys2Proof.Machine

/-- The parts an instruction does not read: general registers outside the column "reads" of 10_state.md R23, and the
registers of `isHidden`. -/
def isUnread (i : Instr) (p : StatePart) : Prop := (∃ r, p = .v r ∧ ¬ regRead r i) ∨ isHidden p

/-- Two states agree in all that `i` may read. -/
structure SameInputs (i : Instr) (s s' : State) : Prop where
  v : ∀ r, regRead r i → readV s' r = readV s r
  i : s'.i = s.i
  pc : s'.pc = s.pc
  sp : s'.sp = s.sp
  stack : s'.stack = s.stack
  dt : s'.dt = s.dt
  key : ∀ k, keyDown s' k = keyDown s k
  fb : s'.fb = s.fb
  mem : ∀ a, s'.mem.read a = s.mem.read a
  draws : s'.draws = s.draws

theorem Framebuffer.ext_pixel {fb fb' : Framebuffer} (h : ∀ px py, fb'.pixel px py = fb.pixel px py) : fb' = fb :=
  Vector.ext fun px hx => Vector.ext fun py hy => h ⟨px, hx⟩ ⟨py, hy⟩

theorem SameInputs.of_onlyChanges {i : Instr} {s s' : State} {P : StatePart → Prop} (h : OnlyChanges s s' P)
    (hP : ∀ p, P p → isUnread i p) : SameInputs i s s' := by
  have hread : ∀ p, ¬ isUnread i p → p.Same s s' := fun p hp => h p fun hc => hp (hP p hc)
  simp only [isUnread, isHidden] at hread
  exact {
    v := fun r hr => hread (.v r) (by simp [hr])
    i := hread .i (by simp)
    pc := hread .pc (by simp)
    sp := hread .sp (by simp)
    stack := Vector.ext fun k hk => hread (.stack ⟨k, hk⟩) (by simp)
    dt := hread .dt (by simp)
    key := fun k => hread (.key k) (by simp)
    fb := Framebuffer.ext_pixel fun px py => hread (.pixel px py) (by simp)
    mem := fun a => hread (.mem a) (by simp)
    draws := hread .draws (by simp) }

section
variable {i : Instr} {s s' : State} (h : SameInputs i s s')
include h

theorem SameInputs.fatalCondition_eq : fatalCondition i s' = fatalCondition i s := by
  cases i with
  | skp x | sknp x => simp only [fatalCondition, h.v x rfl]
  | _ => simp only [fatalCondition, h.i, h.pc, h.sp]

theorem SameInputs.normalWrites_eq : normalWrites i s' = normalWrites i s := by
  unfold normalWrites
  rw [h.i, h.sp]

theorem SameInputs.readBytes_eq (addr len : Nat) : s'.mem.readBytes addr len = s.mem.readBytes addr len := by
  simp only [Memory.readBytes, h.mem]

theorem SameInputs.writeBytes_read (addr : Nat) (bs : List Byte) (a : Nat) :
    (s'.mem.writeBytes addr bs).read a = (s.mem.writeBytes addr bs).read a := by
  simp only [Memory.read_writeBytes, h.mem]

end

theorem SameInputs.blockOf_eq {x : Reg} {s s' : State} (h : SameInputs (.ldMemVx x) s s') : blockOf s' x = blockOf s x := by
  refine List.ext_getElem (by simp) fun k hk hk' => ?_
  rw [getElem_blockOf, getElem_blockOf]
  rw [length_blockOf] at hk
  exact h.v _ (Fin.le_def.2 (Nat.le_of_lt_succ hk))

/-- The result of an ALU instruction comes from the ALU's output and `pc` alone. -/
theorem aluInto_same {op : AluOp} {x : Reg} {a b a' b' : Byte} {s s' : State} (hpc : s'.pc = s.pc)
    (ho : alu op a' b' = alu op a b) {p : StatePart}
    (hp : p = .pc ∨ p = .v x ∨ ((alu op a b).flag.isSome ∧ p = .v vf)) :
    p.Same (aluInto op x a b s) (aluInto op x a' b' s') := by
  obtain rfl | rfl | ⟨hf, rfl⟩ := hp
  · simp [StatePart.Same, aluInto_eq, hpc]
  · simp [StatePart.Same, readV_aluInto, readV_aluWrite, ho]
  · obtain ⟨f, hf⟩ := Option.isSome_iff_exists.1 hf
    simp [StatePart.Same, readV_aluInto, readV_aluWrite, ho, hf]

/-- Two fatal conditions of the same kind and info record the same. -/
theorem raise_same {f f' : Fault} (s s' : State) (hkind : f'.kind = f.kind) (hinfo : f'.info = f.info) {p : StatePart}
    (hp : p = .status ∨ p = .errKind ∨ p = .errInfo) : p.Same (raise f s) (raise f' s') := by
  obtain rfl | rfl | rfl := hp
  · exact rfl
  · exact hkind
  · exact hinfo

/-- From states that agree in all an instruction reads, it gives the same values to all it writes. -/
theorem exec_same {i : Instr} {s s' t t' : State} (h : SameInputs i s s') (hf : fatalCondition i s = none)
    (ht : exec i s = .next t) (ht' : exec i s' = .next t') {p : StatePart} (hp : normalWrites i s p) : p.Same t t' := by
  have hpc := h.pc
  have hf' := h.fatalCondition_eq.trans hf
  cases i with
  | cls =>
    cases ht; cases ht'
    obtain rfl | ⟨px, py, rfl⟩ := hp <;> simp [StatePart.Same, hpc]
  | ret =>
    cases ht.symm.trans (exec_ret_ok ((fatalCondition_ret_eq_none s).1 hf))
    cases ht'.symm.trans (exec_ret_ok ((fatalCondition_ret_eq_none s').1 hf'))
    obtain rfl | rfl := hp <;> simp [StatePart.Same, h.sp, h.stack]
  | jp nnn =>
    cases ht; cases ht'
    obtain rfl | hp := hp
    · rfl
    · exact hp.elim
  | jpV0 nnn =>
    cases ht; cases ht'
    obtain rfl | hp := hp
    · simp [StatePart.Same, h.v 0 rfl]
    · exact hp.elim
  | call nnn =>
    cases ht.symm.trans (exec_call_ok nnn ((fatalCondition_call_eq_none nnn s).1 hf))
    cases ht'.symm.trans (exec_call_ok nnn ((fatalCondition_call_eq_none nnn s').1 hf'))
    obtain rfl | rfl | ⟨k, hk, rfl⟩ := hp <;> simp [StatePart.Same, h.sp, h.stack, hpc]
  | seImm x nn | sneImm x nn =>
    cases ht; cases ht'
    obtain rfl | hp := hp
    · simp [StatePart.Same, hpc, h.v x rfl]
    · exact hp.elim
  | seReg x y | sneReg x y =>
    cases ht; cases ht'
    obtain rfl | hp := hp
    · simp [StatePart.Same, hpc, h.v x (.inl rfl), h.v y (.inr rfl)]
    · exact hp.elim
  | skp x =>
    obtain ⟨k, hk⟩ := (fatalCondition_skp_eq_none x s).1 hf
    cases ht.symm.trans (exec_skp_ok hk)
    cases ht'.symm.trans (exec_skp_ok ((congrArg _ (h.v x rfl)).trans hk))
    obtain rfl | hp := hp
    · simp [StatePart.Same, hpc, h.key]
    · exact hp.elim
  | sknp x =>
    obtain ⟨k, hk⟩ := (fatalCondition_sknp_eq_none x s).1 hf
    cases ht.symm.trans (exec_sknp_ok hk)
    cases ht'.symm.trans (exec_sknp_ok ((congrArg _ (h.v x rfl)).trans hk))
    obtain rfl | hp := hp
    · simp [StatePart.Same, hpc, h.key]
    · exact hp.elim
  | ldImm x nn =>
    cases ht; cases ht'
    exact aluInto_same hpc rfl (hp.imp_right .inl)
  | addImm x nn =>
    cases ht; cases ht'
    exact aluInto_same hpc (by rw [h.v x rfl]) (hp.imp_right .inl)
  | ldReg x y =>
    cases ht; cases ht'
    exact aluInto_same hpc (by simp only [alu, h.v y rfl]) (hp.imp_right .inl)
  | orReg x y | andReg x y | xorReg x y =>
    cases ht; cases ht'
    exact aluInto_same hpc (by rw [h.v x (.inl rfl), h.v y (.inr rfl)]) (hp.imp_right .inl)
  | addReg x y | sub x y | subn x y =>
    cases ht; cases ht'
    exact aluInto_same hpc (by rw [h.v x (.inl rfl), h.v y (.inr rfl)]) (hp.imp_right (.imp_right fun e => ⟨rfl, e⟩))
  | shr x y | shl x y =>
    cases ht; cases ht'
    exact aluInto_same hpc (by rw [h.v x rfl]) (hp.imp_right (.imp_right fun e => ⟨rfl, e⟩))
  | rnd x nn =>
    cases ht; cases ht'
    have hout : alu .andOp (drawByte s').1 nn = alu .andOp (drawByte s).1 nn := by simp only [drawByte, h.draws]
    obtain rfl | rfl | rfl := hp
    · simp [StatePart.Same, aluInto_eq, hpc]
    · exact aluInto_same hpc hout (.inr (.inl rfl))
    · simp [StatePart.Same, aluInto_eq, h.draws]
  | ldI nnn =>
    cases ht; cases ht'
    obtain rfl | rfl := hp <;> simp [StatePart.Same, hpc]
  | addIVx x | ldFVx x =>
    cases ht; cases ht'
    obtain rfl | rfl := hp <;> simp [StatePart.Same, hpc, h.i, h.v x rfl]
  | drw x y n =>
    cases ht.symm.trans (exec_drw_ok x y ((fatalCondition_drw_eq_none x y n s).1 hf))
    cases ht'.symm.trans (exec_drw_ok x y ((fatalCondition_drw_eq_none x y n s').1 hf'))
    have hx := h.v x (.inl rfl)
    have hy := h.v y (.inr rfl)
    obtain rfl | rfl | ⟨px, py, rfl⟩ := hp <;> simp [StatePart.Same, hpc, h.i, h.fb, h.readBytes_eq, hx, hy]
  | ldVxDt x =>
    cases ht; cases ht'
    obtain rfl | rfl := hp <;> simp [StatePart.Same, hpc, readDt, h.dt]
  | ldVxK x =>
    cases ht; cases ht'
    obtain rfl | rfl | rfl := hp <;> simp [StatePart.Same, hpc]
  | ldDtVx x | ldStVx x =>
    cases ht; cases ht'
    obtain rfl | rfl := hp <;> simp [StatePart.Same, hpc, h.v x rfl]
  | ldBVx x =>
    cases ht.symm.trans (exec_ldBVx_ok x ((fatalCondition_ldBVx_eq_none x s).1 hf))
    cases ht'.symm.trans (exec_ldBVx_ok x ((fatalCondition_ldBVx_eq_none x s').1 hf'))
    obtain rfl | ⟨k, -, rfl⟩ := hp <;> simp [StatePart.Same, hpc, h.i, h.v x rfl, h.writeBytes_read]
  | ldMemVx x =>
    cases ht.symm.trans (exec_ldMemVx_ok ((fatalCondition_ldMemVx_eq_none x s).1 hf))
    cases ht'.symm.trans (exec_ldMemVx_ok ((fatalCondition_ldMemVx_eq_none x s').1 hf'))
    obtain rfl | ⟨k, -, rfl⟩ := hp <;> simp [StatePart.Same, hpc, h.i, h.blockOf_eq, h.writeBytes_read]
  | ldVxMem x =>
    cases ht.symm.trans (exec_ldVxMem_ok ((fatalCondition_ldVxMem_eq_none x s).1 hf))
    cases ht'.symm.trans (exec_ldVxMem_ok ((fatalCondition_ldVxMem_eq_none x s').1 hf'))
    obtain rfl | ⟨r, hr, rfl⟩ := hp
    · simp [StatePart.Same, hpc]
    · simp only [StatePart.Same, readV_advance]
      rw [readV_loadedBlock, readV_loadedBlock, if_pos hr, if_pos hr, h.i, h.mem]

/-- The parts an instruction gives a new value when it runs from `s`, normally or into its fatal condition. -/
def rewrites (i : Instr) (s : State) (p : StatePart) : Prop :=
  if fatalCondition i s = none then normalWrites i s p else p = .status ∨ p = .errKind ∨ p = .errInfo

/-- NONINTERFERENCE: from states that agree outside parts an instruction does not read, its results agree outside those of
these parts that it does not write. -/
theorem exec_noninterference {i : Instr} {s s' : State} {P : StatePart → Prop} (h : OnlyChanges s s' P)
    (hP : ∀ p, P p → isUnread i p) :
    ∃ t t', exec i s = .next t ∧ exec i s' = .next t' ∧ OnlyChanges t t' (fun p => P p ∧ ¬ rewrites i s p) := by
  have hin : SameInputs i s s' := .of_onlyChanges h hP
  unfold rewrites
  rcases exec_cases i s with ⟨f, hf, ht⟩ | ⟨hf, t, ht, hend⟩ <;>
    rcases exec_cases i s' with ⟨f', hf', ht'⟩ | ⟨hf', t', ht', hend'⟩ <;>
    rw [hin.fatalCondition_eq, hf] at hf'
  · simp only [Option.some.injEq, Prod.mk.injEq] at hf'
    obtain ⟨hkind, hinfo⟩ := hf'
    refine ⟨_, _, ht, ht', ?_⟩
    simpa [hf] using h.both (raise_frame f s) (raise_frame f' s') fun _ => raise_same s s' hkind.symm hinfo.symm
  · cases hf'
  · cases hf'
  · refine ⟨t, t', ht, ht', ?_⟩
    simpa [hf] using h.both hend.frame (hin.normalWrites_eq ▸ hend'.frame) fun _ => exec_same hin hf ht ht'

/-- A register the table lists as written is written by every normal run. -/
theorem normalWrites_of_regWritten {i : Instr} {s : State} {r : Reg} (h : regWritten r i) : normalWrites i s (.v r) := by
  cases i with
  | ldImm | addImm | ldReg | orReg | andReg | xorReg | ldVxDt => exact .inr (congrArg _ h)
  | addReg | sub | subn | shr | shl => exact .inr (h.symm.imp (congrArg _) (congrArg _))
  | rnd | drw => exact .inr (.inl (congrArg _ h))
  | ldVxMem x => exact .inr ⟨r, h, rfl⟩
  | _ => exact h.elim

/-- Settles O45: the noninterference of the one register. -/
theorem registersNotListedAreNotRead : Obligations.RegistersNotListedAreNotRead := by
  intro i s r b hr
  obtain ⟨t, u, ht, hu, hsame⟩ := exec_noninterference (i := i) (writeV_frame s r b) fun p hp => .inl ⟨r, hp, hr⟩
  refine ⟨t, u, ht, hu, hsame.mono fun p hp => by simp [hp.1], fun hw hf => hsame (.v r) fun hnot => hnot.2 ?_⟩
  rw [rewrites, if_pos hf]
  exact normalWrites_of_regWritten hw

/-- The hidden registers an instruction writes are among the parts it gives a new value. -/
theorem rewrites_of_hiddenWritten {i : Instr} {s : State} {p : StatePart} (h : hiddenWritten i s p) : rewrites i s p := by
  obtain ⟨rfl, x, rfl⟩ | ⟨hp, x, rfl⟩ | ⟨hp, hf⟩ := h
  · exact .inr rfl
  · exact .inr (by simpa using hp)
  · rw [rewrites, if_neg hf]
    simpa using hp

/-- Settles O46: the noninterference of the registers of `isHidden`. -/
theorem hiddenRegistersAreNotRead : Obligations.HiddenRegistersAreNotRead := by
  intro i s s' h
  obtain ⟨t, t', ht, ht', hsame⟩ := exec_noninterference (i := i) h fun p hp => .inr hp
  exact ⟨t, t', ht, ht', hsame.mono fun p hp => ⟨hp.1, fun hw => hp.2 (rewrites_of_hiddenWritten hw)⟩⟩

end Sys2Proof.Machine
end

section
/-!
SUPPORT. Single actions and the step: key events, loads, resets, and the step that runs the word at `pc` (spec 10_state.md
R36, R45, R46; log entries 2, 3, 11).
-/

namespace Sys2Proof.Machine

/-! ### Key events -/

theorem keyDown_keyEvent (k j : Key) (v : Bool) (s : State) :
    keyDown (keyEvent k v s) j = if j = k then v else keyDown s j := by
  unfold keyEvent
  split <;> simp

/-- Settles O33: by whether the event wakes the core. -/
theorem keyEventSetsOneKey : Obligations.KeyEventSetsOneKey := by
  refine fun k v s => ⟨by simp [keyDown_keyEvent], fun h => ?_, fun h => ?_⟩
  · rw [keyEvent_wakes h]
    refine ⟨?_, rfl, ((writeKey_frame s k v).trans (wake_frame k _)).mono (by simp)⟩
    simp only [readV_wake, writeKey_waitReg, if_true, BitVec.toNat_ofNat]
    omega
  · rw [keyEvent_sets h]
    exact (writeKey_frame s k v).mono (by simp)

/-! ### Loading -/

/-- A byte of a written block reads back. -/
theorem Memory.read_writeBytes_inside {bs : List Byte} {k : Nat} {b : Byte} (m : Memory) (addr : Nat)
    (h : bs[k]? = some b) : (m.writeBytes addr bs).read (addr + k) = b := by
  obtain ⟨hk, rfl⟩ := List.getElem?_eq_some_iff.1 h
  rw [Memory.read_writeBytes, dif_pos (by omega)]
  simp

/-- Settles O50: a load is one write of bytes at 0x200. -/
theorem loadWritesTheImage : Obligations.LoadWritesTheImage := by
  refine fun image s => ⟨fun h => ⟨_, loadImage_ok s h, fun k b hb => ?_, writeBytes_frame s 0x200 image⟩,
    loadImage_refused s⟩
  exact Memory.read_writeBytes_inside s.mem 0x200 hb

/-! ### The step -/

theorem step_of_schedule_nil {s : State} (h : s.schedule = []) : step s = cpuStep s := by
  rcases s
  cases h
  rfl

theorem step_of_schedule_cons {s : State} {a : AgentAction} {rest : List AgentAction} (h : s.schedule = a :: rest) :
    step s = act a { s with schedule := rest } := by simp only [step, nextAction, h]

theorem emittedTone_of_schedule_nil {s : State} (h : s.schedule = []) : emittedTone s = false := by
  simp only [emittedTone, nextAction, h]

theorem emittedTone_of_schedule_cons {s : State} {a : AgentAction} {rest : List AgentAction}
    (h : s.schedule = a :: rest) : emittedTone s = true ↔ a = .tick ∧ s.st.toNat = 1 := by
  simp only [emittedTone, nextAction, h]
  cases a <;> simp [tick, toneOf]

/-- Settles O7: by the head of the schedule. -/
theorem scheduledActionsAreTaken : Obligations.ScheduledActionsAreTaken :=
  fun _ => ⟨fun h => ⟨step_of_schedule_nil h, emittedTone_of_schedule_nil h⟩,
    fun _ _ h => ⟨step_of_schedule_cons h, emittedTone_of_schedule_cons h⟩, rfl, rfl, rfl, fun _ _ => rfl⟩

/-- With the CPU next, running, and an instruction at `pc`, the step runs it (10_state.md R45). -/
theorem step_eq_exec {s : State} {i : Instr} (hsched : s.schedule = []) (hrun : s.status = .running)
    (hpc : s.pc.toNat ≤ 0xFFE) (hi : decodeWord (s.mem.wordAt s.pc.toNat) = some i) : step s = exec i s := by
  rw [step_of_schedule_nil hsched, cpuStep_running hrun, runInstruction, fetch_ok hpc]
  simp only [hi]

/-- Two bytes decode to the instruction of their word (20_memory.md R75). -/
theorem decodeWord_of_decode {hi lo : Byte} {rest rest' : List Byte} {i : Instr}
    (h : decode (hi :: lo :: rest) = .ok (i, rest')) : decodeWord (wordOfBytes hi lo) = some i := by
  rcases hd : decodeWord (wordOfBytes hi lo) with _ | j <;> simp only [decode, hd] at h <;> cases h
  rfl

/-- Settles O6: `decode` of the two bytes at `pc` is `decodeWord` of the fetched word. -/
theorem stepRunsTheDecodedInstruction : Obligations.StepRunsTheDecodedInstruction :=
  fun _ _ hsched hrun hpc hi _ => step_eq_exec hsched hrun hpc (decodeWord_of_decode hi)

/-! ### A placed word (log entry 11) -/

theorem decodeWord_of_decodeTableWord {w : Nat} {i : Instr} (h : decodeTableWord 16 w = some i) :
    decodeWord (BitVec.ofNat 16 (w % 2 ^ 16)) = some i := by
  unfold decodeTableWord at h
  split at h
  case h_1 j rest hj =>
    cases h
    rw [← wordOfBytes_slices (BitVec.ofNat 16 (w % 2 ^ 16))]
    exact decodeWord_of_decode hj
  case h_2 => cases h

theorem placeWord_status (w : Word) (s : State) : (placeWord w s).status = .running := by
  unfold placeWord
  by_cases h : s.status = .running <;> simp [h]

theorem placeWord_pc_le (w : Word) (s : State) : (placeWord w s).pc.toNat ≤ 0xFFE := by
  simp only [placeWord]
  split
  case isTrue h => exact Nat.le_of_lt_succ (Nat.lt_of_succ_le h)
  case isFalse => simp

theorem placeWord_wordAt (w : Word) (s : State) : (placeWord w s).mem.wordAt (placeWord w s).pc.toNat = w := by
  simp only [placeWord, Memory.wordAt]
  generalize (if s.pc.toNat + 1 ≤ Config.addrMax then s.pc else BitVec.ofNat 16 Config.progBase).toNat = a
  have hhi := Memory.read_writeBytes_inside (bs := [w.extractLsb' 8 8, w.extractLsb' 0 8]) (k := 0) s.mem a rfl
  have hlo := Memory.read_writeBytes_inside (bs := [w.extractLsb' 8 8, w.extractLsb' 0 8]) (k := 1) s.mem a rfl
  rw [Nat.add_zero] at hhi
  rw [hhi, hlo]
  exact wordOfBytes_slices w

/-- Settles O8: a placed word is the fetched word of a running core with nothing scheduled. -/
theorem placedWordRunsNext : Obligations.PlacedWordRunsNext := by
  refine fun s w i hi => step_eq_exec rfl (placeWord_status _ s) (placeWord_pc_le _ s) ?_
  rw [State.withFetchWord, placeWord_wordAt]
  exact decodeWord_of_decodeTableWord hi

/-! ### Reset (10_state.md R36) -/

/-- Settles O49: `RESET` differs from the machine as built in the model's own two fields only (log entries 2, 4). -/
theorem resetGivesTheTable : Obligations.ResetGivesTheTable := by
  refine ⟨reset_eq, fun font t ht => ?_⟩
  obtain ⟨d, sched, rfl⟩ : ∃ d sched, t = { State.resetWith font with draws := d, schedule := sched } := by
    obtain rfl | ⟨s, rfl, hs⟩ := ht
    · exact ⟨_, _, rfl⟩
    · cases hs
      exact ⟨_, _, rfl⟩
  refine ⟨fun r => ?_, rfl, rfl, rfl, fun k => ?_, rfl, rfl, fun k => ?_, fun px py => ?_, fun a => ?_, fun a ha _ => ?_,
    rfl, rfl, rfl, rfl⟩
  · exact Vector.getElem_replicate r.isLt
  · exact Vector.getElem_replicate k.isLt
  · exact Vector.getElem_replicate k.isLt
  · simp [Framebuffer.pixel]
  · exact dif_pos a.isLt
  · exact dif_neg (by omega)

end Sys2Proof.Machine
end

section
/-!
SUPPORT. Memory as instructions and fetch meet it: bounds, byte order, a fetch after a store, and the table `FONT` that no
action changes (spec 20_memory.md R73, R75, R77, R82, R84; 60_exceptions.md R214; log entry 5).
-/

namespace Sys2Proof.Machine

/-! ### Bounds and byte order -/

/-- Settles O9: by the two cases of the check. -/
theorem checkRangeRejectsExactly : Obligations.CheckRangeRejectsExactly :=
  fun addr _ => ⟨checkRange_ok, fun ⟨h0, h⟩ =>
    ⟨BitVec.ofNat 16 addr, BitVec.toNat_ofNat addr 16, checkRange_error h0 h⟩⟩

/-- The byte at the lower address is the high byte (20_memory.md R75). -/
theorem Memory.toNat_wordAt (m : Memory) (a : Nat) :
    (m.wordAt a).toNat = 256 * (m.read a).toNat + (m.read (a + 1)).toNat := by
  rw [Memory.wordAt, BitVec.toNat_append, ← Nat.shiftLeft_add_eq_or_of_lt (m.read (a + 1)).isLt, Nat.shiftLeft_eq,
    Nat.mul_comm]

/-- Taking a fatal condition halts with its kind and info and leaves the rest (60_exceptions.md R216). -/
theorem raise_haltsWith (f : Fault) (s : State) : HaltsWith (.next (raise f s)) s f.kind f.info :=
  ⟨_, rfl, rfl, rfl, rfl, (raise_frame f s).mono (by simp)⟩

/-- A running core whose `pc` leaves no room for two bytes halts out of bounds (20_memory.md R77, 60_exceptions.md R214). -/
theorem cpuStep_fetch_error {s : State} (hrun : s.status = .running) (hpc : 0xFFE < s.pc.toNat) :
    cpuStep s = .next (raise (.outOfBounds s.pc) s) := by
  rw [cpuStep_running hrun, runInstruction, fetch_error hpc]

/-- Settles O10: by the two cases of fetch. -/
theorem fetchIsBigEndianAndBounded : Obligations.FetchIsBigEndianAndBounded := by
  refine fun s => ⟨fun hpc => ⟨_, fetch_ok hpc, s.mem.toNat_wordAt _⟩, fun hpc => ⟨fetch_error hpc, fun hrun => ?_⟩⟩
  rw [cpuStep_fetch_error hrun hpc]
  exact raise_haltsWith _ s

/-! ### A fetch after a store (20_memory.md R82) -/

/-- A fetch from memory in which a block was just written: where the block covers `pc`, its byte is the high byte of the
word, and where it covers `pc + 1`, its byte is the low byte. -/
theorem fetch_of_writeBytes {t : State} {m : Memory} {addr : Nat} {bs : List Byte} (hmem : t.mem = m.writeBytes addr bs)
    (hpc : t.pc.toNat ≤ 0xFFE) :
    ∃ w, fetch t = .ok w ∧ ∀ (k : Nat) (b : Byte), bs[k]? = some b →
      (addr + k = t.pc.toNat → w.toNat / 256 = b.toNat) ∧ (addr + k = t.pc.toNat + 1 → w.toNat % 256 = b.toNat) := by
  refine ⟨_, fetch_ok hpc, fun k b hb => ?_⟩
  have hread : t.mem.read (addr + k) = b := hmem ▸ m.read_writeBytes_inside addr hb
  have hlo := (t.mem.read (t.pc.toNat + 1)).isLt
  rw [Memory.toNat_wordAt, ← hread]
  constructor <;> intro hk <;> rw [hk] <;> omega

/-- Byte `k` of the stored block of registers is `V[k]`. -/
theorem getElem?_blockOf (s : State) {x k : Reg} (h : k ≤ x) : (blockOf s x)[k.val]? = some (readV s k) := by
  have hk : k.val < (blockOf s x).length := by
    rw [length_blockOf]
    exact Nat.lt_succ_of_le h
  rw [List.getElem?_eq_getElem hk, getElem_blockOf]

/-- The three decimal digits as numbers are the bytes of `decimalDigits`: each fits in a byte. -/
theorem map_toNat_decimalDigits (a : Byte) :
    (decimalDigits a).map BitVec.toNat = [a.toNat / 100, a.toNat / 10 % 10, a.toNat % 10] := by
  have := a.isLt
  simp only [decimalDigits, List.map_cons, List.map_nil, BitVec.toNat_ofNat, List.cons.injEq, and_true]
  omega

/-- Settles O39: after the store `pc` is 2 on, and fetch reads the memory the store wrote. -/
theorem storedBytesAreFetchedNext : Obligations.StoredBytesAreFetchedNext := by
  intro x s hpc
  have hnext : (s.pc + 2).toNat = s.pc.toNat + 2 := by bv_omega
  have hle : (s.pc + 2).toNat ≤ 0xFFE := hnext ▸ hpc
  refine ⟨fun hi => ?_, fun hi => ?_⟩
  · obtain ⟨w, hw, hbytes⟩ := fetch_of_writeBytes
      (t := advance { s with mem := s.mem.writeBytes s.i.toNat (blockOf s x) }) rfl hle
    exact ⟨_, w, exec_ldMemVx_ok hi, hnext, hw, fun k hk => (hbytes k _ (getElem?_blockOf s hk)).1,
      fun k hk => (hbytes k _ (getElem?_blockOf s hk)).2⟩
  · obtain ⟨w, hw, hbytes⟩ := fetch_of_writeBytes
      (t := advance { s with mem := s.mem.writeBytes s.i.toNat (decimalDigits (readV s x)) }) rfl hle
    refine ⟨_, w, exec_ldBVx_ok x hi, hnext, hw, fun k d hd => ?_⟩
    rw [← map_toNat_decimalDigits, List.getElem?_map, Option.map_eq_some_iff] at hd
    obtain ⟨b, hb, rfl⟩ := hd
    exact hbytes k b hb

/-! ### The table `FONT` (20_memory.md R84, log entry 5) -/

/-- No instruction lists the table among the parts it may change. -/
theorem exec_font {i : Instr} {s t : State} (ht : exec i s = .next t) : t.mem.font = s.mem.font :=
  instructionsChangeOnlyTheirOwnParts i s t ht .font id

theorem cpuStep_font {s t : State} (ht : cpuStep s = .next t) : t.mem.font = s.mem.font := by
  rcases hs : s.status with _ | _ | _
  · rw [cpuStep_running hs] at ht
    rcases runInstruction_cases s with ⟨-, hr⟩ | ⟨-, -, hr⟩ | ⟨i, -, -, hr⟩ <;> rw [hr] at ht
    · cases ht; rfl
    · cases ht; rfl
    · exact exec_font ht
  · cases (cpuStep_awaitKey hs).symm.trans ht
    rfl
  · cases (cpuStep_halted hs).symm.trans ht
    rfl

theorem keyEvent_font (k : Key) (v : Bool) (s : State) : (keyEvent k v s).mem.font = s.mem.font := by
  by_cases hwait : s.status = .awaitKey ∧ keyDown s k = false ∧ v = true
  · rw [keyEvent_wakes hwait]; rfl
  · rw [keyEvent_sets hwait]; rfl

theorem loadImage_font {image : List Byte} {s t : State} (ht : loadImage image s = .next t) :
    t.mem.font = s.mem.font := by
  by_cases hlen : image.length ≤ 3584
  · cases (loadImage_ok s hlen).symm.trans ht
    exact Memory.writeBytes_font image s.mem 0x200
  · cases (loadImage_refused s (Nat.not_le.1 hlen)).symm.trans ht

/-- Every action of every agent keeps the table, `RESET` too: the memory it empties stays with the same table. -/
theorem act_font {a : AgentAction} {s t : State} (ht : act a s = .next t) : t.mem.font = s.mem.font := by
  cases a with
  | step => exact cpuStep_font ht
  | tick => cases ht; rfl
  | keyEvent k v => cases ht; exact keyEvent_font k v s
  | reset => cases ht; rfl
  | load image => exact loadImage_font ht

/-- Settles O53: a step is one action, on the state with that action taken off the schedule. -/
theorem fontTableNeverChanges : Obligations.FontTableNeverChanges :=
  ⟨fun _ _ _ => exec_font, fun s _ => act_font (s := { s with schedule := (nextAction s).2 })⟩

end Sys2Proof.Machine
end

section
/-!
SUPPORT. The decoder and the encoder invert each other, the opcode map selects the row of what a word decodes to, and
the words that decode to nothing (spec 30_encoding.md R101 to R109).
-/

namespace Sys2Proof

/-! ### Decoding an encoding -/

/-- The decoder reads back every instruction: by format, the slices of a format's word are its operands. -/
theorem decodeWord_encode (i : Instr) : decodeWord (encode i) = some i := by
  cases i with
  | cls | ret => rfl
  | jp nnn | call nnn | ldI nnn | jpV0 nnn =>
    simp [encode, decodeWord, familyOf_formatNNN, fieldsOf_formatNNN_nnn]
  | seImm x nn | sneImm x nn | ldImm x nn | addImm x nn | rnd x nn | skp x | sknp x =>
    simp [encode, decodeWord, familyOf_formatXNN, fieldsOf_formatXNN_x, fieldsOf_formatXNN_nn]
  | ldVxDt x | ldVxK x | ldDtVx x | ldStVx x | addIVx x | ldFVx x | ldBVx x | ldMemVx x | ldVxMem x =>
    simp [encode, decodeWord, decodeFamilyF, familyOf_formatXNN, fieldsOf_formatXNN_x, fieldsOf_formatXNN_nn]
  | seReg x y | sneReg x y | drw x y n =>
    simp [encode, decodeWord, familyOf_formatXYN, fieldsOf_formatXYN_x, fieldsOf_formatXYN_y, fieldsOf_formatXYN_n]
  | ldReg x y | orReg x y | andReg x y | xorReg x y | addReg x y | sub x y | shr x y | subn x y | shl x y =>
    simp [encode, decodeWord, decodeFamily8, familyOf_formatXYN, fieldsOf_formatXYN_x, fieldsOf_formatXYN_y,
      fieldsOf_formatXYN_n]

/-- At the head of any bytes, the two bytes of a word that decodes give its instruction. -/
theorem decode_bytesOfWord {w : Word} {i : Instr} (h : decodeWord w = some i) (rest : List Byte) :
    decode (bytesOfWord w ++ rest) = .ok (i, rest) := by
  simp only [bytesOfWord, List.cons_append, List.nil_append, decode, wordOfBytes_slices, h]

/-- Settles O1: the two bytes of a word are the word again, and the decoder reads back every encoding. -/
theorem decodeInvertsEncode : Obligations.DecodeInvertsEncode :=
  fun i _ => ⟨decodeWord_encode i, decode_bytesOfWord (decodeWord_encode i)⟩

/-- Settles O5: each word is the encoding of its instruction. -/
theorem writtenOutWordsDecode : Obligations.WrittenOutWordsDecode :=
  ⟨decodeWord_encode .cls, decodeWord_encode .ret, decodeWord_encode (.jp 0xABC), decodeWord_encode (.seImm 3 0x05),
    decodeWord_encode (.ldImm 10 0x42), decodeWord_encode (.subn 1 2), decodeWord_encode (.ldI 0x2F0),
    decodeWord_encode (.drw 0 1 2), decodeWord_encode (.sknp 4), decodeWord_encode (.ldBVx 3)⟩

/-! ### The slices of a word as numbers (30_encoding.md R101) -/

theorem familyOf_eq (w : Word) : familyOf w = w.toNat / 0x1000 := by
  rw [familyOf, BitVec.extractLsb'_toNat, Nat.shiftRight_eq_div_pow]
  exact Nat.mod_eq_of_lt (by have := w.isLt; omega)

theorem toNat_fieldsOf_n (w : Word) : (fieldsOf w).n.toNat = w.toNat % 16 := BitVec.extractLsb'_toNat ..

theorem toNat_fieldsOf_nn (w : Word) : (fieldsOf w).nn.toNat = w.toNat % 256 := BitVec.extractLsb'_toNat ..

theorem toNat_fieldsOf_nnn (w : Word) : (fieldsOf w).nnn.toNat = w.toNat % 0x1000 := BitVec.extractLsb'_toNat ..

theorem val_fieldsOf_x (w : Word) : (fieldsOf w).x.val = w.toNat / 256 % 16 := by
  rw [← Nat.shiftRight_eq_div_pow w.toNat 8]
  exact BitVec.extractLsb'_toNat ..

theorem val_fieldsOf_y (w : Word) : (fieldsOf w).y.val = w.toNat / 16 % 16 := by
  rw [← Nat.shiftRight_eq_div_pow w.toNat 4]
  exact BitVec.extractLsb'_toNat ..

/-! ### A word is the format of its slices (30_encoding.md R102) -/

theorem formatNNN_of_slices {w : Word} {op : BitVec 4} {nnn : BitVec 12} (hop : familyOf w = op.toNat)
    (hnnn : (fieldsOf w).nnn.toNat = nnn.toNat) : formatNNN op nnn = w := by
  apply BitVec.eq_of_toNat_eq
  rw [formatNNN, toNat_append_eq, ← hop, ← hnnn, familyOf_eq, toNat_fieldsOf_nnn]
  omega

theorem formatXNN_of_slices {w : Word} {op : BitVec 4} {nn : Byte} (hop : familyOf w = op.toNat)
    (hnn : (fieldsOf w).nn.toNat = nn.toNat) : formatXNN op (fieldsOf w).x nn = w := by
  apply BitVec.eq_of_toNat_eq
  rw [formatXNN, toNat_append_eq, toNat_append_eq, ← hop, ← hnn, BitVec.toNat_ofFin, familyOf_eq, val_fieldsOf_x,
    toNat_fieldsOf_nn]
  omega

theorem formatXYN_of_slices {w : Word} {op n : BitVec 4} (hop : familyOf w = op.toNat)
    (hn : (fieldsOf w).n.toNat = n.toNat) : formatXYN op (fieldsOf w).x (fieldsOf w).y n = w := by
  apply BitVec.eq_of_toNat_eq
  rw [formatXYN, toNat_append_eq, toNat_append_eq, toNat_append_eq, ← hop, ← hn, BitVec.toNat_ofFin, BitVec.toNat_ofFin,
    familyOf_eq, val_fieldsOf_x, val_fieldsOf_y, toNat_fieldsOf_n]
  omega

/-! ### Encoding what was decoded -/

theorem encode_of_decodeFamily8 {w : Word} {i : Instr} (hop : familyOf w = 0x8)
    (h : decodeFamily8 (fieldsOf w) = some i) : encode i = w := by
  unfold decodeFamily8 at h
  split at h <;> cases h <;> exact formatXYN_of_slices hop ‹_›

theorem encode_of_decodeFamilyF {w : Word} {i : Instr} (hop : familyOf w = 0xF)
    (h : decodeFamilyF (fieldsOf w) = some i) : encode i = w := by
  unfold decodeFamilyF at h
  split at h <;> cases h <;> exact formatXNN_of_slices hop ‹_›

/-- A word is the encoding of what it decodes to: by family, each with its format. -/
theorem encode_of_decodeWord {w : Word} {i : Instr} (h : decodeWord w = some i) : encode i = w := by
  simp only [decodeWord] at h
  split at h
  case h_1 hop =>
    split at h
    case h_1 hnnn => cases h; exact formatNNN_of_slices (op := 0x0) (nnn := 0x0E0) hop hnnn
    case h_2 hnnn => cases h; exact formatNNN_of_slices (op := 0x0) (nnn := 0x0EE) hop hnnn
    case h_3 => cases h
  case h_2 hop | h_3 hop | h_11 hop | h_12 hop => cases h; exact formatNNN_of_slices hop rfl
  case h_4 hop | h_5 hop | h_7 hop | h_8 hop | h_13 hop => cases h; exact formatXNN_of_slices hop rfl
  case h_6 hop | h_10 hop => split at h <;> cases h; exact formatXYN_of_slices hop ‹_›
  case h_9 hop => exact encode_of_decodeFamily8 hop h
  case h_14 hop => cases h; exact formatXYN_of_slices hop rfl
  case h_15 hop => split at h <;> cases h <;> exact formatXNN_of_slices hop ‹_›
  case h_16 hop => exact encode_of_decodeFamilyF hop h
  case h_17 => cases h

/-- Settles O2: operands typed by the width of their field are well-formed. -/
theorem encodeInvertsDecode : Obligations.EncodeInvertsDecode :=
  fun _ i h => ⟨encode_of_decodeWord h, i.wellFormed_all⟩

/-! ### The words that decode to nothing -/

theorem decodeFamily8_eq_none (d : Fields) :
    decodeFamily8 d = none ↔ d.n.toNat ∈ [0x8, 0x9, 0xA, 0xB, 0xC, 0xD, 0xF] := by
  obtain ⟨x, y, ⟨n⟩, nn, nnn⟩ := d
  fin_cases n <;> simp [decodeFamily8]

theorem decodeFamilyF_eq_none (d : Fields) :
    decodeFamilyF d = none ↔ d.nn.toNat ∉ [0x07, 0x0A, 0x15, 0x18, 0x1E, 0x29, 0x33, 0x55, 0x65] := by
  unfold decodeFamilyF
  split <;> simp_all

/-- In family 0 the low 12 bits are the word. -/
theorem toNat_fieldsOf_nnn_of_family_zero {w : Word} (h : familyOf w = 0x0) : (fieldsOf w).nnn.toNat = w.toNat := by
  rw [familyOf_eq] at h
  rw [toNat_fieldsOf_nnn]
  omega

theorem familyOf_lt (w : Word) : familyOf w < 16 := BitVec.isLt _

/-- Settles O4: family by family, the words its dispatch leaves out. -/
theorem unknownWordsAreTheListedOnes : Obligations.UnknownWordsAreTheListedOnes := by
  intro w
  rw [← familyOf_eq, ← toNat_fieldsOf_n, ← toNat_fieldsOf_nn]
  simp only [decodeWord]
  split
  case h_1 hop =>
    simp only [BitVec.toNat_eq, ne_eq, ← toNat_fieldsOf_nnn_of_family_zero hop, hop]
    split <;> simp_all
  case h_6 hop | h_10 hop | h_15 hop => split <;> simp_all
  case h_9 hop => simp [hop, decodeFamily8_eq_none]
  case h_16 hop => simp [hop, decodeFamilyF_eq_none]
  case h_17 =>
    have := familyOf_lt w
    exfalso
    simp only [imp_false] at *
    omega
  all_goals simp [*]

/-! ### The row of the opcode map -/

/-- The bits of a word that say which instruction it is, by family: the family, and the low nibble, the low byte or the
whole word where the family is dispatched further (30_encoding.md R104). -/
def opcodeMask : Nat → Word
  | 0x0 => 0xFFFF
  | 0x5 | 0x8 | 0x9 => 0xF00F
  | 0xE | 0xF => 0xF0FF
  | _ => 0xF000

/-- A slice that a mask keeps whole reads as before under the mask. -/
theorem extractLsb'_and_of_allOnes {w m : Word} {start len : Nat} (hm : m.extractLsb' start len = BitVec.allOnes len) :
    (w &&& m).extractLsb' start len = w.extractLsb' start len := by
  rw [BitVec.extractLsb'_and, hm, BitVec.and_allOnes]

theorem familyOf_and_opcodeMask (w : Word) (f : Nat) : familyOf (w &&& opcodeMask f) = familyOf w := by
  refine congrArg BitVec.toNat (extractLsb'_and_of_allOnes ?_)
  unfold opcodeMask
  split <;> rfl

theorem map_mnemonic_decodeFamily8 {d e : Fields} (h : d.n = e.n) :
    (decodeFamily8 d).map Instr.mnemonic = (decodeFamily8 e).map Instr.mnemonic := by
  unfold decodeFamily8
  rw [h]
  split <;> rfl

theorem map_mnemonic_decodeFamilyF {d e : Fields} (h : d.nn = e.nn) :
    (decodeFamilyF d).map Instr.mnemonic = (decodeFamilyF e).map Instr.mnemonic := by
  unfold decodeFamilyF
  rw [h]
  split <;> rfl

/-- The bits of `opcodeMask` alone say which instruction a word is. -/
theorem map_mnemonic_decodeWord_masked (w : Word) :
    (decodeWord (w &&& opcodeMask (familyOf w))).map Instr.mnemonic = (decodeWord w).map Instr.mnemonic := by
  have hall : w &&& 0xFFFF = w := BitVec.and_allOnes
  have hn : (fieldsOf (w &&& 0xF00F)).n = (fieldsOf w).n := extractLsb'_and_of_allOnes rfl
  have hnn : (fieldsOf (w &&& 0xF0FF)).nn = (fieldsOf w).nn := extractLsb'_and_of_allOnes rfl
  simp only [decodeWord, familyOf_and_opcodeMask]
  split
  case h_1 hop => rw [hop, opcodeMask, hall]
  case h_6 hop | h_10 hop => rw [hop, opcodeMask, hn]; split <;> rfl
  case h_9 hop => rw [hop]; exact map_mnemonic_decodeFamily8 hn
  case h_15 hop => rw [hop, opcodeMask, hnn]; split <;> rfl
  case h_16 hop => rw [hop]; exact map_mnemonic_decodeFamilyF hnn
  all_goals rfl

/-- Each row of the map checks the bits of its family's `opcodeMask`, and its pattern decodes to its instruction. -/
theorem opcodeMap_rows : ∀ r ∈ opcodeMap,
    r.mask = opcodeMask (familyOf r.pattern) ∧ (decodeWord r.pattern).map Instr.mnemonic = some r.mnemonic := by
  decide

/-- A word decodes to the instruction of a row it selects. -/
theorem map_mnemonic_decodeWord_of_selects {w : Word} {r : OpcodeRow} (hr : r ∈ opcodeMap) (hs : r.selects w = true) :
    (decodeWord w).map Instr.mnemonic = some r.mnemonic := by
  obtain ⟨hmask, hdecodes⟩ := opcodeMap_rows r hr
  have hpattern : w &&& opcodeMask (familyOf r.pattern) = r.pattern := hmask ▸ beq_iff_eq.1 hs
  have hfamily : familyOf w = familyOf r.pattern := by
    rw [← familyOf_and_opcodeMask w (familyOf r.pattern), hpattern]
  rw [← map_mnemonic_decodeWord_masked, hfamily, hpattern, hdecodes]

open Laws.EncodingRow in
/-- The word of every instruction selects a row of its mnemonic. -/
theorem encode_selects_row : ∀ i : Instr, Statement i
  | .cls => cls
  | .ret => ret
  | .jp nnn => jp nnn
  | .call nnn => call nnn
  | .seImm x nn => seImm x nn
  | .sneImm x nn => sneImm x nn
  | .seReg x y => seReg x y
  | .ldImm x nn => ldImm x nn
  | .addImm x nn => addImm x nn
  | .ldReg x y => ldReg x y
  | .orReg x y => orReg x y
  | .andReg x y => andReg x y
  | .xorReg x y => xorReg x y
  | .addReg x y => addReg x y
  | .sub x y => sub x y
  | .shr x y => shr x y
  | .subn x y => subn x y
  | .shl x y => shl x y
  | .sneReg x y => sneReg x y
  | .ldI nnn => ldI nnn
  | .jpV0 nnn => jpV0 nnn
  | .rnd x nn => rnd x nn
  | .drw x y n => drw x y n
  | .skp x => skp x
  | .sknp x => sknp x
  | .ldVxDt x => ldVxDt x
  | .ldVxK x => ldVxK x
  | .ldDtVx x => ldDtVx x
  | .ldStVx x => ldStVx x
  | .addIVx x => addIVx x
  | .ldFVx x => ldFVx x
  | .ldBVx x => ldBVx x
  | .ldMemVx x => ldMemVx x
  | .ldVxMem x => ldVxMem x

/-- The mnemonics of the rows a word selects are exactly that of what it decodes to. -/
theorem mem_mnemonics_selected_iff (w : Word) (m : String) :
    m ∈ (opcodeMap.filter (fun r => r.selects w)).map (fun r => r.mnemonic) ↔
      m ∈ (decodeWord w).toList.map Instr.mnemonic := by
  rw [← Option.toList_map, Option.mem_toList]
  simp only [List.mem_map, List.mem_filter]
  constructor
  · rintro ⟨r, ⟨hr, hs⟩, rfl⟩
    exact map_mnemonic_decodeWord_of_selects hr hs
  · intro h
    obtain ⟨i, hi, rfl⟩ := Option.map_eq_some_iff.1 h
    obtain ⟨r, hr, hm, hs⟩ := encode_selects_row i
    exact ⟨r, ⟨hr, encode_of_decodeWord hi ▸ hs⟩, hm⟩

/-- The rows have 34 different mnemonics. -/
theorem nodup_opcodeMap_mnemonics : (opcodeMap.map (fun r => r.mnemonic)).Nodup := by decide

/-- Settles O3: the two lists have the same members and no duplicates, and the second has at most one. -/
theorem opcodeMapSelectsOneRow : Obligations.OpcodeMapSelectsOneRow := by
  refine ⟨rfl, fun w => ?_⟩
  have hnodup : ((opcodeMap.filter (fun r => r.selects w)).map (fun r => r.mnemonic)).Nodup :=
    nodup_opcodeMap_mnemonics.sublist (List.filter_sublist.map _)
  have hmem := mem_mnemonics_selected_iff w
  generalize decodeWord w = d at hmem ⊢
  cases d with
  | none => exact List.eq_nil_iff_forall_not_mem.2 fun m hm => List.not_mem_nil ((hmem m).1 hm)
  | some i => exact List.perm_singleton.1 ((List.perm_ext_iff_of_nodup hnodup (List.nodup_singleton _)).2 hmem)

end Sys2Proof
end

section
/-!
SUPPORT. Control flow (spec 40_control_flow.md R130 to R138): jumps, a call and the return from it, and skips, each with
the word of its encoding line.
-/

namespace Sys2Proof

/-! ### The words of an instruction by their digits (30_encoding.md R102) -/

theorem decodeWord_wordNNN {op : BitVec 4} {nnn : BitVec 12} {i : Instr} (h : encode i = formatNNN op nnn) :
    decodeWord (Machine.wordNNN op.toNat nnn.toNat) = some i := by
  rw [wordNNN_eq, ← h, decodeWord_encode]

theorem decodeWord_wordXNN {op : BitVec 4} {x : Reg} {nn : Byte} {i : Instr} (h : encode i = formatXNN op x nn) :
    decodeWord (Machine.wordXNN op.toNat x.val nn.toNat) = some i := by
  rw [wordXNN_eq, ← h, decodeWord_encode]

theorem decodeWord_wordXYN {op : BitVec 4} {x y : Reg} {n : BitVec 4} {i : Instr} (h : encode i = formatXYN op x y n) :
    decodeWord (Machine.wordXYN op.toNat x.val y.val n.toNat) = some i := by
  rw [wordXYN_eq, ← h, decodeWord_encode]

/-- The families of the register skips have an instruction only at low nibble 0 (30_encoding.md R109). -/
theorem decodeWord_wordXYN_eq_none {op n : BitVec 4} (x y : Reg) (hop : op = 0x5 ∨ op = 0x9) (hn : n ≠ 0) :
    decodeWord (Machine.wordXYN op.toNat x.val y.val n.toNat) = none := by
  have hn0 : n.toNat ≠ 0 := fun h => hn (BitVec.eq_of_toNat_eq h)
  rw [wordXYN_eq]
  -- the match on the low nibble falls through by `hn0`
  obtain rfl | rfl := hop <;> simp [decodeWord, familyOf_formatXYN, fieldsOf_formatXYN_n]

end Sys2Proof

namespace Sys2Proof.Machine

/-! ### Jumps -/

theorem nextPc_onlyChanges_pc (s : State) (n : NextPc) : OnlyChanges s (nextPc s n) (· ∈ [StatePart.pc]) :=
  (nextPc_frame s n).mono fun _ => List.mem_singleton.2

theorem toNat_addrOf (nnn : BitVec 12) : (addrOf nnn).toNat = nnn.toNat := BitVec.toNat_setWidth_of_le (by decide)

/-- The sum of `JP V0, nnn` is at most `0xFFF + 0xFF`, so 16 bits hold it (R133). -/
theorem toNat_addrOf_add_wordOf (nnn : BitVec 12) (b : Byte) :
    (addrOf nnn + wordOf b).toNat = nnn.toNat + b.toNat := by
  have := nnn.isLt
  have := b.isLt
  rw [addrOf_add_wordOf, BitVec.toNat_ofNat]
  omega

/-- Settles O13: both load `pc`, with the address or with its sum with `V[0]`. -/
theorem jumpsSetThePc : Obligations.JumpsSetThePc := fun nnn s =>
  ⟨⟨decodeWord_wordNNN (op := 0x1) rfl, _, rfl, toNat_addrOf nnn, nextPc_onlyChanges_pc s _⟩,
    ⟨decodeWord_wordNNN (op := 0xB) rfl, _, rfl, toNat_addrOf_add_wordOf nnn _, nextPc_onlyChanges_pc s _⟩⟩

/-! ### Call and return -/

/-- A call at depth `k` pushes the return address to entry `k`. -/
theorem exec_call_of_depth (nnn : BitVec 12) {s : State} {k : Fin 16} (h : s.sp.val = k.val) :
    exec (.call nnn) s = .next { s with stack := s.stack.set k.val (s.pc + 2), sp := k.succ, pc := addrOf nnn } := by
  obtain ⟨k, hk⟩ := k
  obtain rfl : s.sp.val = k := h
  exact exec_call_ok nnn hk

/-- A return from depth `k + 1` takes entry `k`. -/
theorem exec_ret_of_depth {s : State} {k : Fin 16} (h : s.sp.val = k.val + 1) :
    exec .ret s = .next { s with sp := k.castSucc, pc := s.stack[k.val] } := by
  have hk : s.sp.val - 1 = k.val := by omega
  rw [exec_ret_ok (by omega)]
  simp only [hk]
  rfl

/-- Settles O16: the call at depth `k` writes entry `k`, which the return from depth `k + 1` takes. -/
theorem callThenReturnComesBack : Obligations.CallThenReturnComesBack := by
  intro nnn s hsp
  have hcall := exec_call_of_depth nnn (s := s) (k := ⟨s.sp.val, hsp⟩) rfl
  refine ⟨_, hcall, fun body hdepth hstack => ?_⟩
  have hret := exec_ret_of_depth (s := body) (k := ⟨s.sp.val, hsp⟩) (congrArg Fin.val hdepth)
  exact ⟨_, hret, (hstack _).trans (Vector.getElem_set_self hsp), rfl⟩

/-- Settles O14: with room on the stack by the push, and without by the fatal condition. -/
theorem callPushesTheReturnAddress : Obligations.CallPushesTheReturnAddress := by
  refine fun nnn s => ⟨decodeWord_wordNNN (op := 0x2) rfl, fun k hk => ?_, fun hfull => ?_⟩
  · refine ⟨_, exec_call_of_depth nnn hk, ?_, rfl, toNat_addrOf nnn, ?_⟩
    · rw [Vector.getElem_set_self, BitVec.toNat_add]
      rfl
    · exact ((setStack_frame s k k.isLt _).trans (setSpPc_frame _ _ _)).mono (by simp)
  · rw [exec_call_error nnn hfull]
    exact raise_haltsWith _ s

/-- Settles O15: above the bottom of the stack by the pop, and at it by the fatal condition. -/
theorem returnPopsIntoThePc : Obligations.ReturnPopsIntoThePc := by
  refine fun s => ⟨decodeWord_encode .ret, fun k hk => ?_, fun hempty => ?_⟩
  · exact ⟨_, exec_ret_of_depth hk, rfl, rfl, (setSpPc_frame s _ _).mono (by simp)⟩
  · rw [exec_ret_error hempty]
    exact raise_haltsWith _ s

/-! ### Skips -/

/-- What a skip instruction does, by its condition. -/
theorem skips_of_exec_eq {i : Instr} {s : State} {c : Bool} {P : Prop} [Decidable P]
    (hexec : exec i s = .next (skipIf c s)) (hc : c = true ↔ P) :
    ∃ t, exec i s = .next t ∧ t.pc = (if P then s.pc + 4 else s.pc + 2) ∧
      OnlyChanges s t (fun p => p ∈ [StatePart.pc]) :=
  ⟨_, hexec, by simp only [skipIf_pc, hc], nextPc_onlyChanges_pc s _⟩

theorem aluEq_iff (a b : Byte) : aluEq a b = true ↔ a = b := beq_iff_eq

theorem not_aluEq_iff (a b : Byte) : (!aluEq a b) = true ↔ a ≠ b := bne_iff_ne

/-- Settles O17: `SE` skips on equality, `SNE` on its negation. -/
theorem skipsOnAnImmediate : Obligations.SkipsOnAnImmediate := fun _ _ _ =>
  ⟨⟨decodeWord_wordXNN (op := 0x3) rfl, skips_of_exec_eq rfl (aluEq_iff _ _)⟩,
    ⟨decodeWord_wordXNN (op := 0x4) rfl, skips_of_exec_eq rfl (not_aluEq_iff _ _)⟩⟩

/-- Settles O18: as for an immediate, with two registers; the two families decode only at low nibble 0. -/
theorem skipsOnRegisters : Obligations.SkipsOnRegisters := fun x y _ =>
  ⟨⟨decodeWord_wordXYN (op := 0x5) (n := 0x0) rfl, skips_of_exec_eq rfl (aluEq_iff _ _)⟩,
    ⟨decodeWord_wordXYN (op := 0x9) (n := 0x0) rfl, skips_of_exec_eq rfl (not_aluEq_iff _ _)⟩,
    fun _ hn => ⟨decodeWord_wordXYN_eq_none (op := 0x5) x y (.inl rfl) hn,
      decodeWord_wordXYN_eq_none (op := 0x9) x y (.inr rfl) hn⟩⟩

end Sys2Proof.Machine
end

section
/-!
SUPPORT. Register arithmetic (spec 41_register_arithmetic.md R150 to R162): what an ALU instruction leaves in its
destination, in VF and in `pc`, and its results and flags as numbers and bits.
-/

namespace Sys2Proof.Machine

/-! ### The end of an ALU instruction (41_register_arithmetic.md R162) -/

/-- The destination holds the result, VF as destination included: the result is written last. -/
theorem readV_aluInto_self (op : AluOp) (x : Reg) (a b : Byte) (s : State) :
    readV (aluInto op x a b s) x = (alu op a b).res := by rw [readV_aluInto, readV_aluWrite, if_pos rfl]

theorem readV_aluInto_vf {op : AluOp} {x : Reg} {a b : Byte} {s : State} {f : Bool} (hflag : (alu op a b).flag = some f)
    (hx : x ≠ 15) : readV (aluInto op x a b s) 15 = flagByte f := by
  rw [readV_aluInto, readV_aluWrite, if_neg hx.symm, if_pos (show 15 = vf from rfl), hflag]

theorem aluInto_pc (op : AluOp) (x : Reg) (a b : Byte) (s : State) : (aluInto op x a b s).pc = s.pc + 2 := by
  rw [aluInto_eq]

/-- An operation without a flag leaves VF. -/
theorem aluInto_frame_of_flag_eq_none {op : AluOp} {a b : Byte} (hflag : (alu op a b).flag = none) (x : Reg) (s : State) :
    OnlyChanges s (aluInto op x a b s) (fun p => p ∈ [StatePart.pc, StatePart.v x]) := by
  refine (aluInto_frame op x a b s).mono ?_
  rintro p ((rfl | ⟨hsome, -⟩) | rfl)
  · simp
  · simp [hflag] at hsome
  · simp

/-- What an ALU instruction with a flag does, by a property of its result and one of its flag. -/
theorem flagged_of_exec_eq (R F : Byte → Prop) {i : Instr} {op : AluOp} {x : Reg} {a b : Byte} {s : State} {f : Bool}
    (hexec : exec i s = .next (aluInto op x a b s)) (hflag : (alu op a b).flag = some f) (hres : R (alu op a b).res)
    (hvf : F (flagByte f)) :
    ∃ t, exec i s = .next t ∧ R (readV t x) ∧ (x ≠ 15 → F (readV t 15)) ∧ t.pc = s.pc + 2 ∧
      OnlyChanges s t (fun p => p ∈ [StatePart.pc, StatePart.v 15, StatePart.v x]) := by
  refine ⟨_, hexec, ?_, fun hx => ?_, aluInto_pc .., (aluInto_frame op x a b s).mono ?_⟩
  · rwa [readV_aluInto_self]
  · rwa [readV_aluInto_vf hflag hx]
  · rintro p ((rfl | ⟨-, rfl⟩) | rfl) <;> simp [vf]

/-! ### Results and flags (41_register_arithmetic.md R161) -/

/-- The wrapped difference is the difference of the integers modulo 256 (spec decision D6). -/
theorem toNat_sub_eq_emod (a b : Byte) : ((a - b).toNat : Int) = (a.toNat - b.toNat : Int) % 256 := by
  have := b.isLt
  rw [BitVec.toNat_sub]
  omega

theorem toNat_ushiftRight_one (a : Byte) : (a >>> 1).toNat = a.toNat / 2 := by
  rw [BitVec.toNat_ushiftRight, Nat.shiftRight_one]

theorem toNat_shiftLeft_one (a : Byte) : (a <<< 1).toNat = 2 * a.toNat % 256 := by
  rw [BitVec.toNat_shiftLeft, Nat.shiftLeft_eq, Nat.mul_comm]

/-- A comparison as a flag. -/
theorem flagByte_decide (P : Prop) [Decidable P] : flagByte (decide P) = if P then 1 else 0 := by simp [flagByte]

/-- A bit of a register as a flag: the bit as a number. -/
theorem toNat_flagByte_getLsbD (a : Byte) (k : Nat) : (flagByte (a.getLsbD k)).toNat = a.toNat / 2 ^ k % 2 := by
  rw [← Nat.toNat_testBit, BitVec.testBit_toNat]
  cases a.getLsbD k <;> rfl

theorem toNat_flagByte_bit_zero (a : Byte) : (flagByte (a.getLsbD 0)).toNat = a.toNat % 2 := by
  rw [toNat_flagByte_getLsbD, pow_zero, Nat.div_one]

/-- The top bit of a byte is what stands above the lower seven. -/
theorem toNat_flagByte_bit_seven (a : Byte) : (flagByte (a.getLsbD 7)).toNat = a.toNat / 128 := by
  have := a.isLt
  rw [toNat_flagByte_getLsbD]
  omega

/-! ### Addition, subtraction and shifts: with a flag -/

/-- Settles O22: the sum of the bytes wraps, and the carry compares the sum of their values. -/
theorem addRegistersWithCarryOut : Obligations.AddRegistersWithCarryOut := fun _ _ _ =>
  ⟨decodeWord_wordXYN (op := 0x8) (n := 0x4) rfl,
    flagged_of_exec_eq (BitVec.toNat · = _) (· = _) rfl rfl (BitVec.toNat_add _ _) (flagByte_decide _)⟩

/-- Settles O23: the two instructions differ in the order of the operands only. -/
theorem subtractionsWithNotBorrow : Obligations.SubtractionsWithNotBorrow := fun _ _ _ =>
  ⟨⟨decodeWord_wordXYN (op := 0x8) (n := 0x5) rfl,
      flagged_of_exec_eq (fun r => (r.toNat : Int) = _) (· = _) rfl rfl (toNat_sub_eq_emod _ _) (flagByte_decide _)⟩,
    ⟨decodeWord_wordXYN (op := 0x8) (n := 0x7) rfl,
      flagged_of_exec_eq (fun r => (r.toNat : Int) = _) (· = _) rfl rfl (toNat_sub_eq_emod _ _) (flagByte_decide _)⟩⟩

/-- Settles O24: the bit shifted out is bit 0 of the old value, or bit 7. -/
theorem shiftsByOne : Obligations.ShiftsByOne := fun _ _ _ =>
  ⟨⟨decodeWord_wordXYN (op := 0x8) (n := 0x6) rfl,
      flagged_of_exec_eq (BitVec.toNat · = _) (BitVec.toNat · = _) rfl rfl (toNat_ushiftRight_one _)
        (toNat_flagByte_bit_zero _)⟩,
    ⟨decodeWord_wordXYN (op := 0x8) (n := 0xE) rfl,
      flagged_of_exec_eq (BitVec.toNat · = _) (BitVec.toNat · = _) rfl rfl (toNat_shiftLeft_one _)
        (toNat_flagByte_bit_seven _)⟩⟩

/-! ### Loads, immediate addition and logic: without a flag -/

/-- Settles O20: the second operand, or the wrapped sum, and no flag. -/
theorem loadsAndImmediateAdd : Obligations.LoadsAndImmediateAdd := by
  refine fun x y nn s => ⟨⟨decodeWord_wordXNN (op := 0x6) rfl, _, rfl, readV_aluInto_self .., aluInto_pc ..,
      aluInto_frame_of_flag_eq_none rfl x s⟩,
    ⟨decodeWord_wordXNN (op := 0x7) rfl, _, rfl, ?_, aluInto_pc .., aluInto_frame_of_flag_eq_none rfl x s⟩,
    ⟨decodeWord_wordXYN (op := 0x8) (n := 0x0) rfl, _, rfl, readV_aluInto_self .., aluInto_pc ..,
      aluInto_frame_of_flag_eq_none rfl x s⟩⟩
  rw [readV_aluInto_self]
  exact BitVec.toNat_add _ _

/-- Settles O21: a bit of the result is the operation on that bit of both operands. -/
theorem logicOperations : Obligations.LogicOperations := by
  refine fun x y s => ⟨⟨decodeWord_wordXYN (op := 0x8) (n := 0x1) rfl, _, rfl, aluInto_pc .., fun k _ => ?_,
      aluInto_frame_of_flag_eq_none rfl x s⟩,
    ⟨decodeWord_wordXYN (op := 0x8) (n := 0x2) rfl, _, rfl, aluInto_pc .., fun k _ => ?_,
      aluInto_frame_of_flag_eq_none rfl x s⟩,
    ⟨decodeWord_wordXYN (op := 0x8) (n := 0x3) rfl, _, rfl, aluInto_pc .., fun k _ => ?_,
      aluInto_frame_of_flag_eq_none rfl x s⟩⟩ <;> rw [readV_aluInto_self]
  · exact BitVec.getLsbD_or
  · exact BitVec.getLsbD_and
  · exact BitVec.getLsbD_xor

end Sys2Proof.Machine
end

section
/-!
SUPPORT. The memory and index family (spec 42_memory_index.md R170 to R172): the numbers written to `I`, and the masked
draw.
-/

namespace Sys2Proof.Machine

/-! ### Writes of the index register -/

/-- What an instruction does that writes `I` and advances, by the number it writes. -/
theorem setsIndex_of_exec_eq {i : Instr} {s : State} {a : Word} {n : Nat}
    (hexec : exec i s = .next (advance (writeI s a))) (ha : a.toNat = n) :
    ∃ t, exec i s = .next t ∧ t.i.toNat = n ∧ t.pc = s.pc + 2 ∧
      OnlyChanges s t (fun p => p ∈ [StatePart.pc, StatePart.i]) :=
  ⟨_, hexec, ha, rfl, ((writeI_frame s a).trans (advance_frame _)).mono (by simp)⟩

/-- The last glyph starts at 75, so 16 bits hold the address (20_memory.md R84). -/
theorem toNat_glyphAddr (a : Byte) :
    (glyphAddr a).toNat = Config.fontBase + Config.glyphBytes * (a.toNat % 16) := by
  simp only [glyphAddr, Config.fontBase, Config.glyphBytes, BitVec.toNat_ofNat]
  omega

/-- Settles O25: the address field zero-extended, or the address of the glyph. -/
theorem indexLoads : Obligations.IndexLoads := fun nnn _ _ =>
  ⟨⟨decodeWord_wordNNN (op := 0xA) rfl, setsIndex_of_exec_eq rfl (toNat_addrOf nnn)⟩,
    ⟨decodeWord_wordXNN (op := 0xF) (nn := 0x29) rfl, setsIndex_of_exec_eq rfl (toNat_glyphAddr _)⟩⟩

/-! ### The masked draw -/

theorem aluInto_draws (op : AluOp) (x : Reg) (a b : Byte) (s : State) : (aluInto op x a b s).draws = s.draws := by
  rw [aluInto_eq]

/-- Settles O26: the draw, then the ALU's AND of the byte drawn with `nn`, which has no flag. -/
theorem randomByteIsMasked : Obligations.RandomByteIsMasked := by
  refine fun x nn s => ⟨decodeWord_wordXNN (op := 0xC) rfl, _, rfl, fun k _ => ?_, aluInto_draws .., aluInto_pc .., ?_⟩
  · rw [readV_aluInto_self]
    exact BitVec.getLsbD_and
  · have hand : (alu .andOp (drawByte s).1 nn).flag = none := rfl
    refine ((drawByte_frame s).trans (aluInto_frame_of_flag_eq_none hand x _)).mono ?_
    rintro p (rfl | hp)
    · simp
    · exact List.mem_append_left [StatePart.draws] hp

end Sys2Proof.Machine
end

section
/-!
SUPPORT. The display (spec 43_display.md R180 to R183): the cleared screen, one draw as a raster over the pixels under
the sprite's 1 bits, and two draws of one sprite.
-/

namespace Sys2Proof.Machine

/-! ### The cleared screen -/

/-- Settles O28: the framebuffer is replaced by one with every pixel off, and `pc` advances. -/
theorem clearScreenTurnsAllOff : Obligations.ClearScreenTurnsAllOff := fun s =>
  ⟨decodeWord_encode .cls, _, rfl, pixel_clearScreen s, rfl,
    ((clearScreen_frame s).trans (advance_frame _)).mono fun _ => Or.symm⟩

/-! ### One draw -/

/-- The rows read at `I` cover the pixels of the spec's formula (43_display.md R182). -/
theorem covers_readBytes_iff (s : State) (xv yv : Byte) (n : Nat) (px : Column) (py : Row) :
    Covers xv yv 0 (s.mem.readBytes s.i.toNat n) px py ↔ SpriteCovers s xv yv n px py := by
  simp only [Covers, RowCovers, SpriteCovers, spriteBit, landColumn, landRow, Fin.ext_iff, Fin.val_ofNat,
    Memory.length_readBytes, Memory.getElem_readBytes, List.mem_range, BitVec.testBit_toNat, Nat.zero_add]
  constructor
  · rintro ⟨r, hr, c, hc, hcover⟩
    exact ⟨r, c, hr, hc, hcover⟩
  · rintro ⟨r, c, hr, hc, hcover⟩
    exact ⟨r, hr, c, hc, hcover⟩

/-- The state a draw leaves: the raster's framebuffer, its collision in VF, and `pc` advanced (43_display.md R181). -/
def drawn (s : State) (out : Raster) : State := advance (writeFlag { s with fb := out.fb } out.coll)

section
variable (s : State) (out : Raster)

@[simp] theorem drawn_pc : (drawn s out).pc = s.pc + 2 := rfl

@[simp] theorem readV_drawn_vf : readV (drawn s out) 15 = flagByte out.coll :=
  (readV_writeFlag _ out.coll 15).trans (if_pos rfl)

theorem drawn_frame :
    OnlyChanges s (drawn s out) (fun p => p ∈ [StatePart.pc, StatePart.v 15] ∨ ∃ px py, p = .pixel px py) := by
  refine (((setFb_frame s out.fb).trans (writeV_frame _ vf _)).trans (advance_frame _)).mono ?_
  rintro p ((hpixel | rfl) | rfl)
  · exact .inr hpixel
  · exact .inl (by simp [vf])
  · exact .inl (by simp)

end

/-- A draw in bounds inverts the pixels under the sprite's 1 bits and collides when one of them was on. -/
theorem exec_drw_drawn (x y : Reg) {n : BitVec 4} {s : State} (h : n.toNat = 0 ∨ s.i.toNat + n.toNat - 1 ≤ 0xFFF) :
    ∃ out, exec (.drw x y n) s = .next (drawn s out) ∧
      Draws ⟨s.fb, false⟩ out (SpriteCovers s (readV s x) (readV s y) n.toNat) := by
  have hrows : (s.mem.readBytes s.i.toNat n.toNat).length ≤ 32 := by
    have := n.isLt
    rw [Memory.length_readBytes]
    omega
  exact ⟨_, exec_drw_ok x y (by omega), (draw_draws _ _ _ hrows s.fb).congr (covers_readBytes_iff s _ _ _)⟩

/-- Settles O29: in bounds by the raster of the draw, and otherwise by the fatal condition. -/
theorem drawInvertsTheSprite : Obligations.DrawInvertsTheSprite := by
  refine fun x y n s => ⟨decodeWord_wordXYN (op := 0xD) rfl, fun hin => ?_, fun ⟨hpos, hout⟩ => ?_⟩
  · obtain ⟨out, hexec, hdraws⟩ := exec_drw_drawn x y hin
    have hcoll := hdraws.coll.trans (or_iff_right Bool.false_ne_true)
    refine ⟨_, hexec, hdraws.inverted, hdraws.kept, fun hon => ?_, fun hoff => ?_, drawn_pc s out, drawn_frame s out⟩
    · rw [readV_drawn_vf, hcoll.2 hon]
      rfl
    · rw [readV_drawn_vf, Bool.eq_false_iff.2 (mt hcoll.1 hoff)]
      rfl
  · rw [exec_drw_error x y hpos (by omega)]
    exact raise_haltsWith _ s

/-! ### Two draws of one sprite -/

/-- Two drawings over the same pixels invert each of them twice. -/
theorem Draws.pixel_twice {acc mid out : Raster} {b : Bool} {c : Column → Row → Prop} (h : Draws acc mid c)
    (h' : Draws ⟨mid.fb, b⟩ out c) (px : Column) (py : Row) : out.fb.pixel px py = acc.fb.pixel px py := by
  by_cases hc : c px py
  · rw [h'.inverted px py hc, h.inverted px py hc, Bool.not_not]
  · rw [h'.kept px py hc, h.kept px py hc]

/-- A second drawing over the same pixels collides on one that was off before the first. -/
theorem Draws.coll_twice {acc mid out : Raster} {b : Bool} {c : Column → Row → Prop} (h : Draws acc mid c)
    (h' : Draws ⟨mid.fb, b⟩ out c) {px : Column} {py : Row} (hc : c px py) (hoff : acc.fb.pixel px py = false) :
    out.coll = true :=
  h'.coll.2 (.inr ⟨px, py, hc, by rw [h.inverted px py hc, hoff, Bool.not_false]⟩)

/-- Drawing changes neither the sprite nor `I`. -/
theorem spriteCovers_drawn (s : State) (out : Raster) (xv yv : Byte) (n : Nat) :
    SpriteCovers (drawn s out) xv yv n = SpriteCovers s xv yv n := rfl

/-- A draw out of bounds takes its fatal condition. -/
theorem eq_raise_of_exec_drw {x y : Reg} {n : BitVec 4} {s t : State}
    (ht : exec (.drw x y n) s = .next t) (h : ¬ (n.toNat = 0 ∨ s.i.toNat + n.toNat - 1 ≤ 0xFFF)) :
    t = raise (.outOfBounds s.i) s :=
  Host.Outcome.next.inj (ht.symm.trans (exec_drw_error x y (by omega) (by omega)))

/-- Settles O30: in bounds the second draw covers the pixels of the first, and otherwise neither draws. -/
theorem drawTwiceRestoresTheScreen : Obligations.DrawTwiceRestoresTheScreen := by
  intro x y n s t u ht hx hy hu
  by_cases hin : n.toNat = 0 ∨ s.i.toNat + n.toNat - 1 ≤ 0xFFF
  · obtain ⟨mid, hexec, hdraws⟩ := exec_drw_drawn x y hin
    obtain rfl : drawn s mid = t := Host.Outcome.next.inj (hexec.symm.trans ht)
    obtain ⟨out, hexec', hdraws'⟩ := exec_drw_drawn x y (s := drawn s mid) hin
    obtain rfl : drawn (drawn s mid) out = u := Host.Outcome.next.inj (hexec'.symm.trans hu)
    rw [hx, hy, spriteCovers_drawn] at hdraws'
    refine ⟨hdraws.pixel_twice hdraws', fun _ ⟨px, py, hcover, hoff⟩ => ?_⟩
    rw [readV_drawn_vf, hdraws.coll_twice hdraws' hcover hoff]
    rfl
  · obtain rfl := eq_raise_of_exec_drw ht hin
    obtain rfl := eq_raise_of_exec_drw hu hin
    exact ⟨fun _ _ => rfl, fun h => absurd h hin⟩

end Sys2Proof.Machine
end

section
/-!
SUPPORT. The key, timer and transfer family (spec 44_key_timer.md R190 to R201): skips on a key, the wait for a key, the
timer moves, the addition to `I`, and the transfers between registers and memory at `I`.
-/

namespace Sys2Proof.Machine

/-! ### Two ends of an instruction: the default advance and the fatal condition -/

/-- An update and the default advance change `pc` and what the update changes. -/
theorem OnlyChanges.then_advance {s t : State} {C : StatePart → Prop} (h : OnlyChanges s t C) :
    OnlyChanges s (advance t) (fun p => p = .pc ∨ C p) := (h.trans (advance_frame t)).mono fun _ => Or.symm

theorem haltsWith_of_exec_eq {i : Instr} {s : State} {f : Fault} (hexec : exec i s = .next (raise f s)) :
    HaltsWith (exec i s) s f.kind f.info := hexec ▸ raise_haltsWith f s

/-! ### Skips on a key (44_key_timer.md R190, R191) -/

/-- A register value above 15 is recorded zero-extended (60_exceptions.md R215). -/
theorem info_keyIndexOutOfRange (a : Byte) : (Fault.keyIndexOutOfRange a).info = BitVec.ofNat 16 a.toNat :=
  (BitVec.ofNat_toNat 16 a).symm

/-- Settles O31: by the skip on the key that `V[x]` names, and by the fatal condition when it names none. -/
theorem skipsOnAKey : Obligations.SkipsOnAKey := by
  refine fun x s => ⟨decodeWord_wordXNN (op := 0xE) (nn := 0x9E) rfl, decodeWord_wordXNN (op := 0xE) (nn := 0xA1) rfl,
    fun k hk => ⟨skips_of_exec_eq (exec_skp_ok hk) Iff.rfl,
      skips_of_exec_eq (exec_sknp_ok hk) (Iff.of_eq (Bool.not_eq_true' _))⟩, fun hbig => ?_⟩
  rw [← info_keyIndexOutOfRange]
  exact ⟨haltsWith_of_exec_eq (exec_skp_error hbig), haltsWith_of_exec_eq (exec_sknp_error hbig)⟩

/-! ### Waiting for a key (44_key_timer.md R192) -/

/-- A timer counts down by 1 and stops at 0, as subtraction of naturals does (60_exceptions.md R223). -/
theorem toNat_countDown (b : Byte) : (countDown b).toNat = b.toNat - 1 := by
  unfold countDown
  split <;> bv_omega

/-- Settles O32: the events by what a key event does to a waiting core (O33). -/
theorem keyWait : Obligations.KeyWait := by
  intro x s
  refine ⟨decodeWord_wordXNN (op := 0xF) (nn := 0x0A) rfl, advance (awaitKey x s), rfl, rfl, rfl, rfl,
    (awaitKey_frame x s).then_advance.mono (by simp), cpuStep_awaitKey rfl, rfl, toNat_countDown _, toNat_countDown _,
    fun k v hidle => ?_, fun k hup => ?_⟩
  · obtain ⟨-, -, hsets⟩ := keyEventSetsOneKey k v (advance (awaitKey x s))
    refine hsets (fun ⟨_, hup, hpress⟩ => ?_) .status (by simp)
    simp [hup, hpress] at hidle
  · obtain ⟨hdown, hwakes, -⟩ := keyEventSetsOneKey k true (advance (awaitKey x s))
    obtain ⟨hreg, hrun, hframe⟩ := hwakes ⟨rfl, hup, rfl⟩
    exact ⟨hrun, hreg, hdown, hframe .pc (by simp)⟩

/-! ### Timer moves and the addition to `I` (44_key_timer.md R193 to R196) -/

/-- Settles O34: each is one write and the default advance. -/
theorem timerMoves : Obligations.TimerMoves := fun x s =>
  ⟨⟨decodeWord_wordXNN (op := 0xF) (nn := 0x07) rfl, _, rfl, (readV_writeV s x x _).trans (if_pos rfl), rfl,
      (writeV_frame s x _).then_advance.mono (by simp)⟩,
    ⟨decodeWord_wordXNN (op := 0xF) (nn := 0x15) rfl, _, rfl, rfl, rfl,
      (loadDt_frame _ s).then_advance.mono (by simp)⟩,
    ⟨decodeWord_wordXNN (op := 0xF) (nn := 0x18) rfl, _, rfl, rfl, rfl,
      (loadSt_frame _ s).then_advance.mono (by simp)⟩⟩

/-- The sum of `ADD I, Vx` wraps at 16 bits (spec decision D11). -/
theorem toNat_add_wordOf (a : Word) (b : Byte) : (a + wordOf b).toNat = (a.toNat + b.toNat) % 65536 := by
  rw [BitVec.toNat_add, wordOf, BitVec.toNat_setWidth_of_le (by decide)]

/-- Settles O27: by the number written to `I`. -/
theorem addToTheIndex : Obligations.AddToTheIndex := fun _ s =>
  ⟨decodeWord_wordXNN (op := 0xF) (nn := 0x1E) rfl, setsIndex_of_exec_eq rfl (toNat_add_wordOf s.i _)⟩

/-! ### Transfers of a block of registers (44_key_timer.md R197, R198) -/

/-- The store of `V[0]` to `V[x]` at `I` on changes these bytes of memory only. -/
theorem storedBlock_frame (s : State) (x : Reg) :
    OnlyChanges s { s with mem := s.mem.writeBytes s.i.toNat (blockOf s x) }
      (fun p => ∃ k : Reg, k ≤ x ∧ p = .mem (s.i.toNat + k.val)) := by
  refine (writeBytes_frame s _ _).mono ?_
  rintro p ⟨k, hk, rfl⟩
  rw [length_blockOf] at hk
  exact ⟨⟨k, by omega⟩, Nat.le_of_lt_succ hk, rfl⟩

/-- Settles O35: in bounds by the write of the block, and otherwise by the fatal condition. -/
theorem storeRegisters : Obligations.StoreRegisters := fun x s =>
  ⟨decodeWord_wordXNN (op := 0xF) (nn := 0x55) rfl,
    fun hin => ⟨_, exec_ldMemVx_ok hin, fun _ hk => s.mem.read_writeBytes_inside _ (getElem?_blockOf s hk), rfl,
      (storedBlock_frame s x).then_advance⟩,
    fun hout => haltsWith_of_exec_eq (exec_ldMemVx_error hout)⟩

/-- Settles O36: in bounds by the load of the block, and otherwise by the fatal condition. -/
theorem loadRegisters : Obligations.LoadRegisters := fun x s =>
  ⟨decodeWord_wordXNN (op := 0xF) (nn := 0x65) rfl,
    fun hin => ⟨_, exec_ldVxMem_ok hin, fun k hk => (readV_loadedBlock s x k).trans (if_pos hk),
      congrArg (· + 2) (writeBlock_pc _ _ s), (loadedBlock_frame s x).then_advance⟩,
    fun hout => haltsWith_of_exec_eq (exec_ldVxMem_error hout)⟩

/-- Settles O38: the store (O35) leaves `I`, so the load (O36) is in bounds and reads the bytes the store wrote. -/
theorem storeThenLoadGivesRegistersBack : Obligations.StoreThenLoadGivesRegistersBack := by
  intro x s hin
  obtain ⟨-, hstore, -⟩ := storeRegisters x s
  obtain ⟨t, ht, hstored, -, hframe⟩ := hstore hin
  have hti : t.i = s.i := hframe .i (by simp)
  refine ⟨t, ht, fun later hi hmem => ?_⟩
  have hi : later.i = s.i := hi.trans hti
  obtain ⟨-, hload, -⟩ := loadRegisters x later
  obtain ⟨u, hu, hloaded, -⟩ := hload (hi ▸ hin)
  refine ⟨u, hu, fun k hk => ?_⟩
  rw [hloaded k hk, hi, hmem, hstored k hk]

/-! ### Decimal digits (44_key_timer.md R199) -/

/-- The stored digits read back as numbers: hundreds, tens and ones. -/
theorem toNat_read_storedDigits (m : Memory) (addr : Nat) (a : Byte) {k d : Nat}
    (h : [a.toNat / 100, a.toNat / 10 % 10, a.toNat % 10][k]? = some d) :
    ((m.writeBytes addr (decimalDigits a)).read (addr + k)).toNat = d := by
  rw [← map_toNat_decimalDigits, List.getElem?_map, Option.map_eq_some_iff] at h
  obtain ⟨b, hb, rfl⟩ := h
  rw [m.read_writeBytes_inside addr hb]

/-- The store of the digits at `addr` on changes three bytes of memory only. -/
theorem storedDigits_frame (s : State) (addr : Nat) (a : Byte) :
    OnlyChanges s { s with mem := s.mem.writeBytes addr (decimalDigits a) }
      (fun p => p ∈ [StatePart.mem addr, StatePart.mem (addr + 1), StatePart.mem (addr + 2)]) := by
  refine (writeBytes_frame s addr _).mono ?_
  rintro p ⟨k, hk, rfl⟩
  rw [length_decimalDigits] at hk
  interval_cases k <;> simp

/-- Settles O37: in bounds by the write of the three digits, and otherwise by the fatal condition. -/
theorem storeDecimalDigits : Obligations.StoreDecimalDigits := fun x s =>
  ⟨decodeWord_wordXNN (op := 0xF) (nn := 0x33) rfl,
    fun hin => ⟨_, exec_ldBVx_ok x hin, toNat_read_storedDigits s.mem _ _ (k := 0) rfl,
      toNat_read_storedDigits s.mem _ _ (k := 1) rfl, toNat_read_storedDigits s.mem _ _ (k := 2) rfl, rfl,
      (storedDigits_frame s _ _).then_advance.mono fun _ => List.mem_cons.2⟩,
    fun hout => haltsWith_of_exec_eq (exec_ldBVx_error x hout)⟩

end Sys2Proof.Machine
end

section
/-!
SUPPORT. Fatal conditions, halting, the timers and the wait (spec 60_exceptions.md R210 to R227): which actions can change
the status registers, and what a tick does to the timers.
-/

namespace Sys2Proof.Machine

/-! ### The checks of a step (R210, R216, R219) -/

/-- A running core takes the unknown-instruction condition when the word at `pc` decodes to nothing (R211). -/
theorem cpuStep_decode_error {s : State} (hrun : s.status = .running) (hpc : s.pc.toNat ≤ 0xFFE)
    (hdec : decodeWord (s.mem.wordAt s.pc.toNat) = none) :
    cpuStep s = .next (raise (.unknownInstruction (s.mem.wordAt s.pc.toNat)) s) := by
  simp only [cpuStep_running hrun, runInstruction, fetch_ok hpc, hdec]

theorem cpuStep_eq_exec {s : State} {i : Instr} (hrun : s.status = .running) (hpc : s.pc.toNat ≤ 0xFFE)
    (hdec : decodeWord (s.mem.wordAt s.pc.toNat) = some i) : cpuStep s = exec i s := by
  simp only [cpuStep_running hrun, runInstruction, fetch_ok hpc, hdec]

/-- Settles O11: the checks one after another; a normal end of an instruction records no error and does not halt. -/
theorem fatalConditionsInOrder : Obligations.FatalConditionsInOrder := by
  refine fun s hrun => ⟨fun hpc => ?_, fun hpc => ⟨fun hdec => ?_, fun i hdec => ?_⟩⟩
  · rw [cpuStep_fetch_error hrun hpc]
    exact raise_haltsWith _ s
  · rw [cpuStep_decode_error hrun hpc hdec]
    exact raise_haltsWith _ s
  · rw [cpuStep_eq_exec hrun hpc hdec]
    refine ⟨fun kind info hf => ?_, fun hf => ?_⟩
    · obtain ⟨f, hexec, rfl, rfl⟩ := exec_fatal hf
      exact haltsWith_of_exec_eq hexec
    · obtain ⟨t, ht, hend⟩ := exec_normal hf
      obtain ⟨hstatus, hkind, hinfo⟩ := hend.status ht
      refine ⟨t, ht, ?_, hkind, hinfo⟩
      rcases hstatus with h | h <;> simp [h, hrun]

/-! ### Outcomes (log entries 1, 2, 3) -/

theorem exec_answers (i : Instr) (s : State) : ∃ t, exec i s = .next t := by
  rcases exec_cases i s with ⟨f, -, hexec⟩ | ⟨-, t, hexec, -⟩
  · exact ⟨_, hexec⟩
  · exact ⟨t, hexec⟩

/-- A core that is not running does nothing (10_state.md R45). -/
theorem cpuStep_not_running {s : State} (hs : s.status ≠ .running) : cpuStep s = .next s := by
  rcases h : s.status with _ | _ | _
  · exact absurd h hs
  · exact cpuStep_awaitKey h
  · exact cpuStep_halted h

theorem cpuStep_answers (s : State) : ∃ t, cpuStep s = .next t := by
  by_cases hrun : s.status = .running
  · rw [cpuStep_running hrun]
    rcases runInstruction_cases s with ⟨-, hr⟩ | ⟨-, -, hr⟩ | ⟨i, -, -, hr⟩ <;> rw [hr]
    · exact ⟨_, rfl⟩
    · exact ⟨_, rfl⟩
    · exact exec_answers i s
  · exact ⟨s, cpuStep_not_running hrun⟩

/-- Every action of every agent answers a next state, but for the load of too long an image (10_state.md R46). -/
theorem act_answers (a : AgentAction) (s : State) :
    (∃ t, act a s = .next t) ∨
    ∃ image, a = .load image ∧ 3584 < image.length ∧ act a s = .refused (.imageTooLong image.length) := by
  cases a with
  | step => exact .inl (cpuStep_answers s)
  | tick | keyEvent | reset => exact .inl ⟨_, rfl⟩
  | load image =>
    rcases Nat.lt_or_ge 3584 image.length with hlen | hlen
    · exact .inr ⟨image, rfl, hlen, loadImage_refused s hlen⟩
    · exact .inl ⟨_, loadImage_ok s hlen⟩

/-- Settles O12: a step is the CPU's, or the first action of the schedule. -/
theorem stepAnswersANextState : Obligations.StepAnswersANextState := by
  intro s
  rcases hsched : s.schedule with _ | ⟨a, rest⟩
  · rw [step_of_schedule_nil hsched]
    exact .inl (cpuStep_answers s)
  · rw [step_of_schedule_cons hsched]
    rcases act_answers a { s with schedule := rest } with hnext | ⟨image, rfl, hlen, hrefused⟩
    · exact .inl hnext
    · exact .inr ⟨image, rest, rfl, hlen, hrefused⟩

/-! ### The timers (R223 to R225) -/

theorem tick_frame (s : State) : OnlyChanges s (tick s).1 (fun p => p = .dt ∨ p = .st) :=
  (loadDt_frame (countDown s.dt) s).trans (loadSt_frame (countDown s.st) _)

/-- Settles O40: by the count of each timer. -/
theorem tickCountsDown : Obligations.TickCountsDown := fun s =>
  ⟨rfl, toNat_countDown s.dt, toNat_countDown s.st, beq_iff_eq, (tick_frame s).mono (by simp)⟩

/-- After `n` ticks each timer is lower by `n`, or 0. -/
theorem ticks_timers (n : Nat) (s : State) :
    (ticks n s).dt.toNat = s.dt.toNat - n ∧ (ticks n s).st.toNat = s.st.toNat - n := by
  induction n generalizing s with
  | zero => exact ⟨rfl, rfl⟩
  | succ n ih =>
    obtain ⟨hdt, hst⟩ := ih (tick s).1
    rw [tick_dt, toNat_countDown] at hdt
    rw [tick_st, toNat_countDown] at hst
    rw [ticks, hdt, hst]
    omega

/-- Settles O41: the tone comes when `ST`, lower by `n`, is 1. -/
theorem toneComesAtTheLastTick : Obligations.ToneComesAtTheLastTick := by
  intro s n
  obtain ⟨hdt, hst⟩ := ticks_timers n s
  obtain ⟨-, -, -, htone, -⟩ := tickCountsDown (ticks n s)
  refine ⟨?_, hdt, hst⟩
  rw [htone, hst]
  omega

/-! ### Which actions change the status registers (R217, R218, R227) -/

/-- A load that is accepted writes memory only. -/
theorem eq_of_loadImage {image : List Byte} {s t : State} (ht : loadImage image s = .next t) :
    t = { s with mem := s.mem.writeBytes 0x200 image } := by
  rcases Nat.lt_or_ge 3584 image.length with hlen | hlen
  · cases (loadImage_refused s hlen).symm.trans ht
  · cases (loadImage_ok s hlen).symm.trans ht
    rfl

/-- Of all actions only `RESET`, the `STEP` of a running core, and in `AWAIT_KEY` the press of a key that was up can change
`STATE`, `ERR_KIND` or `ERR_INFO`. -/
theorem act_status_cases {a : AgentAction} {s t : State} (ht : act a s = .next t) :
    a = .reset ∨ (a = .step ∧ s.status = .running) ∨
    (∃ k, a = .keyEvent k true ∧ s.status = .awaitKey ∧ keyDown s k = false) ∨
    (t.status = s.status ∧ t.errKind = s.errKind ∧ t.errInfo = s.errInfo) := by
  cases a with
  | step =>
    by_cases hrun : s.status = .running
    · exact .inr (.inl ⟨rfl, hrun⟩)
    · cases (cpuStep_not_running hrun).symm.trans ht
      exact .inr (.inr (.inr ⟨rfl, rfl, rfl⟩))
  | tick =>
    cases ht
    exact .inr (.inr (.inr ⟨rfl, rfl, rfl⟩))
  | keyEvent k v =>
    cases ht
    by_cases hpress : s.status = .awaitKey ∧ keyDown s k = false ∧ v = true
    · obtain ⟨hwait, hup, rfl⟩ := hpress
      exact .inr (.inr (.inl ⟨k, rfl, hwait, hup⟩))
    · rw [keyEvent_sets hpress]
      exact .inr (.inr (.inr ⟨rfl, rfl, rfl⟩))
  | reset => exact .inl rfl
  | load image =>
    cases eq_of_loadImage ht
    exact .inr (.inr (.inr ⟨rfl, rfl, rfl⟩))

/-! ### Halted (R217, R218) -/

/-- Two resets of machines with the same table differ in the model's own two fields only (log entries 2, 4). -/
theorem resetMachine_frame {s s' : State} (hfont : s'.mem.font = s.mem.font) :
    OnlyChanges (resetMachine s) (resetMachine s') (fun p => p ∈ [StatePart.draws, StatePart.schedule]) := by
  have hreset : resetMachine s' = { resetMachine s with draws := s'.draws, schedule := s'.schedule } := by
    rw [resetMachine, hfont, resetMachine]
  rw [hreset]
  intro p hp
  cases p with
  | draws | schedule => exact absurd (by simp) hp
  | _ => rfl

/-- Settles O42: what can change the status registers is, for a halted core, `RESET` alone. -/
theorem haltedStaysHalted : Obligations.HaltedStaysHalted := by
  intro s hs
  obtain ⟨-, hdt, hst, htone, -⟩ := tickCountsDown s
  refine ⟨cpuStep_halted hs, by simp [report, hs, Status.code], fun a t hne ht => ?_, hdt, hst, htone,
    fun k v => (keyEventSetsOneKey k v s).1, rfl, rfl, rfl, fun s' => resetMachine_frame⟩
  rcases act_status_cases ht with hreset | ⟨-, hrun⟩ | ⟨k, -, hwait, -⟩ | ⟨hstatus, hkind, hinfo⟩
  · exact absurd hreset hne
  · simp [hs] at hrun
  · simp [hs] at hwait
  · exact ⟨hstatus.trans hs, hkind, hinfo⟩

/-! ### The wait (R227) -/

/-- Only `LD Vx, K` enters the wait: a fatal condition halts, and of the normal ends only that of `LD Vx, K` writes
`STATE`. -/
theorem exists_ldVxK_of_exec_awaitKey {i : Instr} {s t : State} (ht : exec i s = .next t) (hs : s.status ≠ .awaitKey)
    (hwait : t.status = .awaitKey) : ∃ x, i = .ldVxK x := by
  rcases exec_cases i s with ⟨f, -, hexec⟩ | ⟨-, u, hexec, hend⟩ <;> cases hexec.symm.trans ht
  · simp at hwait
  · by_cases hw : normalWrites i s .status
    · exact exists_ldVxK_of_normalWrites_status hw
    · have hsame : t.status = s.status := hend.frame .status hw
      exact absurd (hsame.symm.trans hwait) hs

/-- The `STEP` of a running core enters the wait only when the word at `pc` is an `LD Vx, K`. -/
theorem exists_ldVxK_of_cpuStep_awaitKey {s t : State} (hrun : s.status = .running) (ht : cpuStep s = .next t)
    (hwait : t.status = .awaitKey) :
    s.pc.toNat ≤ 0xFFE ∧ ∃ x, decodeWord (s.mem.wordAt s.pc.toNat) = some (.ldVxK x) := by
  rw [cpuStep_running hrun] at ht
  rcases runInstruction_cases s with ⟨-, hr⟩ | ⟨-, -, hr⟩ | ⟨i, hpc, hdec, hr⟩ <;> rw [hr] at ht
  · cases ht
    simp at hwait
  · cases ht
    simp at hwait
  · obtain ⟨x, rfl⟩ := exists_ldVxK_of_exec_awaitKey ht (by simp [hrun]) hwait
    exact ⟨hpc, x, hdec⟩

/-- Settles O43: by the actions that can change `STATE`, on entry and on exit. -/
theorem waitEndsOnlyByAKeyPress : Obligations.WaitEndsOnlyByAKeyPress := by
  refine ⟨fun i s t => exists_ldVxK_of_exec_awaitKey, fun a s t ht hs hwait => ?_,
    fun s hs => ⟨cpuStep_awaitKey hs, fun a t ht hleft => ?_⟩⟩
  · rcases act_status_cases ht with rfl | ⟨rfl, hrun⟩ | ⟨k, -, hwaits, -⟩ | ⟨hstatus, -⟩
    · cases ht
      simp at hwait
    · exact ⟨rfl, hrun, exists_ldVxK_of_cpuStep_awaitKey hrun ht hwait⟩
    · exact absurd hwaits hs
    · exact absurd (hstatus.symm.trans hwait) hs
  · rcases act_status_cases ht with rfl | ⟨-, hrun⟩ | ⟨k, rfl, -, hup⟩ | ⟨hstatus, -⟩
    · exact .inl rfl
    · simp [hs] at hrun
    · cases ht
      obtain ⟨-, hwakes, -⟩ := keyEventSetsOneKey k true s
      obtain ⟨hreg, -⟩ := hwakes ⟨hs, hup, rfl⟩
      exact .inr ⟨k, rfl, hup, hreg⟩
    · exact absurd (hstatus.trans hs) hleft

end Sys2Proof.Machine
end

section
/-!
SUPPORT. Launch and the end of a run (spec 70_reset_and_hazards.md R251 to R253, R258): the word at the head of a written
block, and the jump whose address is its own.
-/

namespace Sys2Proof.Machine

/-! ### Launch (R251, R252, R253) -/

/-- The first two bytes of a written block are the word at its address, the first one high (20_memory.md R75). -/
theorem Memory.wordAt_writeBytes (m : Memory) (addr : Nat) (hi lo : Byte) (bs : List Byte) :
    (m.writeBytes addr (hi :: lo :: bs)).wordAt addr = wordOfBytes hi lo :=
  congrArg₂ wordOfBytes (m.read_writeBytes_inside (k := 0) addr rfl) (m.read_writeBytes_inside (k := 1) addr rfl)

/-- Settles O51: the load writes memory only, so the rest is the table of reset (O49), and `pc` is where the image begins. -/
theorem launchStartsAtTheImage : Obligations.LaunchStartsAtTheImage := by
  intro hi lo image s hlen
  obtain ⟨-, htable⟩ := resetGivesTheTable
  obtain ⟨hv, hi0, hpc, hsp, -, hdt, hst, hkey, hfb, -, -, hrun, hnofault, -⟩ :=
    htable s.mem.font (resetMachine s) (.inr ⟨s, rfl, rfl⟩)
  refine ⟨_, loadImage_ok (resetMachine s) hlen, hnofault, hrun, hsp, hdt, hst, hfb, hkey, hv, hi0, hpc, ?_,
    fun k b hb => ?_⟩
  · rw [fetch_ok (by simp)]
    exact congrArg Except.ok (Memory.wordAt_writeBytes _ 0x200 hi lo image)
  · rw [show 0x202 + k = 0x200 + (k + 2) by omega]
    exact Memory.read_writeBytes_inside _ 0x200 hb

/-! ### The end of a program (R258) -/

/-- The word of a jump is its address with family 1 above it (30_encoding.md R102). -/
theorem encode_jp (nnn : BitVec 12) : encode (.jp nnn) = 0x1000 ||| addrOf nnn := BitVec.append_def ..

/-- An address within memory is the zero extension of its low 12 bits. -/
theorem addrOf_setWidth {a : Word} (h : a.toNat ≤ 0xFFF) : addrOf (a.setWidth 12) = a := by
  unfold addrOf
  bv_omega

/-- Settles O52: the word at `pc` is that of `JP pc`, which loads `pc` with the value it has. -/
theorem selfJumpChangesNothing : Obligations.SelfJumpChangesNothing := by
  rintro s ⟨hrun, hpc, hword⟩
  have haddr : addrOf (s.pc.setWidth 12) = s.pc := addrOf_setWidth (by omega)
  have hdec : decodeWord (s.mem.wordAt s.pc.toNat) = some (.jp (s.pc.setWidth 12)) := by
    rw [hword, ← decodeWord_encode, encode_jp, haddr]
  calc cpuStep s
      = exec (.jp (s.pc.setWidth 12)) s := cpuStep_eq_exec hrun hpc hdec
    _ = .next (nextPc s (.load (addrOf (s.pc.setWidth 12)))) := rfl
    _ = .next (nextPc s (.load s.pc)) := by rw [haddr]
    _ = .next s := rfl

end Sys2Proof.Machine
end
